-- ==== Sys2Proof/Word.lean ====
section
/-! DEFINITION. The byte and the instruction word (spec/00_scope.md R8, R9). Every quantity of this
hardware is an unsigned integer; arithmetic wraps at a value's width, which is what the arithmetic of a
bit vector does. The widths of the registers are parameters of Sys2Proof/Config.lean. -/

namespace Sys2Proof

/-- A byte of memory (spec/20_memory.md R60) or an immediate `kk` (spec/30_encoding.md R91). -/
abbrev Byte := BitVec 8

/-- An instruction word (spec/30_encoding.md R90). -/
abbrev Word := BitVec 16

end Sys2Proof
end

