-- ==== Sys2Proof/Config.lean ====
section
/-! DEFINITION. What an implementation fixes: the literals of spec/00_scope.md R6, all of them and in one
place (spec/92_eei_decisions.md D22), the types they size, the parameters of R7, and the free values of the inputs of a step. -/

namespace Sys2Proof

namespace Config

/-- `MEM_SIZE`: bytes of main memory (R6). -/
@[simp] abbrev memSize : Nat := 4096
/-- `PROG_BASE`: load address and reset value of the program counter (R6). -/
@[simp] abbrev progBase : Nat := 512
/-- `PROG_MAX`: most bytes a load copies, 3584 (R6: `= 4096 - 0x200`). -/
@[simp] abbrev progMax : Nat := memSize - progBase
/-- `NUM_V`: general registers (R6). -/
@[simp] abbrev numV : Nat := 16
/-- `V_BITS`: width of each general register (R6). -/
@[simp] abbrev vBits : Nat := 8
/-- `FLAG_REG`: index of the flag register `VF` (R6). -/
@[simp] abbrev flagReg : Nat := 15
/-- `I_BITS`: width of `I` (R6). -/
@[simp] abbrev iBits : Nat := 16
/-- `PC_BITS`: width of `pc`, and of a return address (R6, spec/10_state.md R26). -/
@[simp] abbrev pcBits : Nat := 16
/-- `TIMER_BITS`: width of `DT` and `ST` (R6). -/
@[simp] abbrev timerBits : Nat := 8
/-- `STACK_DEPTH`: entries of the return-address stack (R6). -/
@[simp] abbrev stackDepth : Nat := 32
/-- `FB_WIDTH`: framebuffer columns (R6). -/
@[simp] abbrev fbWidth : Nat := 64
/-- `FB_HEIGHT`: framebuffer rows (R6). -/
@[simp] abbrev fbHeight : Nat := 32
/-- Cells of the framebuffer, 2048 (R6, spec/10_state.md R30). -/
@[simp] abbrev fbCells : Nat := fbWidth * fbHeight
/-- `NUM_KEYS`: key states (R6). -/
@[simp] abbrev numKeys : Nat := 16
/-- `FONT_BASE`: address of glyph 0 (R6). -/
@[simp] abbrev fontBase : Nat := 0
/-- `GLYPH_BYTES`: bytes of one glyph (R6). -/
@[simp] abbrev glyphBytes : Nat := 5
/-- The font's 80 bytes: 16 glyphs of `GLYPH_BYTES` (R6). -/
@[simp] abbrev fontBytes : Nat := 16 * glyphBytes
/-- `INSTR_BYTES`: bytes of one instruction (R6). -/
@[simp] abbrev instrBytes : Nat := 2

/-- FREE VALUE: the 16 key states of sample `n` when the host has supplied none (R31;
notes/assumptions/2.md). It has no body, so nothing can be proved of it. -/
opaque freeKeys (n : Nat) : BitVec numKeys

/-- FREE VALUE: the random byte of sample `n` when the host has supplied none (R32; spec/93 U4;
notes/assumptions/2.md). It has no body, so nothing can be proved of it. -/
opaque freeRandom (n : Nat) : Byte

end Config

/-- The value of a general register: `V_BITS` wide (R6). -/
abbrev RegVal := BitVec Config.vBits

/-- The value of the index register: `I_BITS` wide (R6). -/
abbrev IndexVal := BitVec Config.iBits

/-- The value of the program counter, and a return address: `PC_BITS` wide (R6, spec/10_state.md R26). -/
abbrev PcVal := BitVec Config.pcBits

/-- The value of a timer: `TIMER_BITS` wide (R6). -/
abbrev TimerVal := BitVec Config.timerBits

/-- The key states: `NUM_KEYS` of them, key `k` at bit `k` (R6, spec/10_state.md R31). -/
abbrev Keys := BitVec Config.numKeys

/-- The built-in font `FONT[0..79]` (spec/20_memory.md R77). -/
abbrev Font := Vector Byte Config.fontBytes

/-- `KEYWAIT_MODE`: what `Fx0A` does when no key is pressed (spec/00_scope.md R7, spec/45 R232). -/
inductive KeyWaitMode where
  | nonblockingLast
  | blockingRetry
  deriving DecidableEq, Repr

/-- `DRAW_EDGE`: what becomes of a sprite pixel off the grid (spec/00_scope.md R7, spec/44 R212, R213). -/
inductive DrawEdge where
  | wrap
  | clip
  deriving DecidableEq, Repr

/-- The parameters the spec leaves open (spec/00_scope.md R7). They are fixed while the machine runs;
the step's form takes no argument beside the state, so a state carries them (notes/assumptions/3.md). -/
structure Params where
  keyWait : KeyWaitMode
  drawEdge : DrawEdge
  font : Font
  deriving DecidableEq, Repr

/-- The one constraint on the parameters: `FONT[50..54]` is the glyph A of the source (R77). -/
abbrev Params.wf (p : Params) : Prop :=
  (p.font.toList.drop 50).take 5 = [0xF0, 0x90, 0xF0, 0x90, 0x90]

/-- The inputs of one step (spec/10_state.md R31, R32): the 16 key states, key `k` at bit `k`, and the
random byte. -/
structure StepInput where
  keys : Keys
  rnd : Byte
  deriving DecidableEq, Repr

end Sys2Proof
end

