-- ==== Sys2Proof/Machine/Flags.lean ====
section
/-! DEFINITION. The values instructions write to the flag register (spec/10_state.md R22): a flag is a
full byte, 0 or 1. -/

namespace Sys2Proof.Machine

/-- A condition as a flag byte: 1 or 0 (R22). -/
def flagByte (c : Bool) : RegVal := if c then 1 else 0

/-- `8xy4`: 1 if the sum exceeds 255 (spec/42_alu.md R166). -/
def carryFlag (a b : RegVal) : RegVal := flagByte (decide (a.toNat + b.toNat > 255))

/-- `8xy5`, `8xy7`: 1 if `a` is strictly greater than `b` (spec/42_alu.md R167, R169). -/
def greaterFlag (a b : RegVal) : RegVal := flagByte (decide (a.toNat > b.toNat))

/-- `8xy6`: the bit a right shift drops (spec/42_alu.md R168). -/
def lowBitFlag (a : RegVal) : RegVal := a &&& 1

/-- `8xyE`: the bit a left shift drops (spec/42_alu.md R170). -/
def highBitFlag (a : RegVal) : RegVal := (a >>> 7) &&& 1

end Sys2Proof.Machine
end

