-- ==== Sys2Proof/Syntax.lean ====
section
/-! DEFINITION. The instructions: one constructor per row of spec/opcode_table.json (spec/30_encoding.md
R95), with the fields of R91 and R92 as operands. -/

namespace Sys2Proof

/-- The number of a general register, 0..15 (spec/10_state.md R21). -/
abbrev Reg := Fin Config.numV

/-- The 34 instructions, in the order of the opcode map (R95). An address operand `nnn` is the 12-bit
field already zero-extended to 16 bits (R93). -/
inductive Instr where
  /-- `0000` (R140) -/
  | nop
  /-- `00E0` (R210) -/
  | cls
  /-- `00EE` (R141) -/
  | ret
  /-- `1nnn` (R142) -/
  | jp (nnn : Word)
  /-- `2nnn` (R143) -/
  | call (nnn : Word)
  /-- `3xkk` (R144) -/
  | seImm (x : Reg) (kk : Byte)
  /-- `4xkk` (R145) -/
  | sneImm (x : Reg) (kk : Byte)
  /-- `5xy0` (R146) -/
  | seReg (x y : Reg)
  /-- `6xkk` (R160) -/
  | ldImm (x : Reg) (kk : Byte)
  /-- `7xkk` (R161) -/
  | addImm (x : Reg) (kk : Byte)
  /-- `8xy0` (R162) -/
  | ldReg (x y : Reg)
  /-- `8xy1` (R163) -/
  | orReg (x y : Reg)
  /-- `8xy2` (R164) -/
  | andReg (x y : Reg)
  /-- `8xy3` (R165) -/
  | xorReg (x y : Reg)
  /-- `8xy4` (R166) -/
  | addReg (x y : Reg)
  /-- `8xy5` (R167) -/
  | subReg (x y : Reg)
  /-- `8xy6` (R168); the field `y` is encoded but not used (R92) -/
  | shr (x y : Reg)
  /-- `8xy7` (R169) -/
  | subn (x y : Reg)
  /-- `8xyE` (R170); the field `y` is encoded but not used (R92) -/
  | shl (x y : Reg)
  /-- `9xy0` (R147) -/
  | sneReg (x y : Reg)
  /-- `Annn` (R190) -/
  | ldI (nnn : Word)
  /-- `Cxkk` (R171) -/
  | rnd (x : Reg) (kk : Byte)
  /-- `Dxyn` (R211); `n` is the number of rows, 0..15 -/
  | drw (x y : Reg) (n : Fin 16)
  /-- `Ex9E` (R230) -/
  | skp (x : Reg)
  /-- `ExA1` (R231) -/
  | sknp (x : Reg)
  /-- `Fx07` (R233) -/
  | ldVxDt (x : Reg)
  /-- `Fx0A` (R232) -/
  | ldVxK (x : Reg)
  /-- `Fx15` (R234) -/
  | ldDtVx (x : Reg)
  /-- `Fx18` (R235) -/
  | ldStVx (x : Reg)
  /-- `Fx1E` (R191) -/
  | addI (x : Reg)
  /-- `Fx29` (R192) -/
  | ldF (x : Reg)
  /-- `Fx33` (R193) -/
  | ldB (x : Reg)
  /-- `Fx55` (R194) -/
  | stRegs (x : Reg)
  /-- `Fx65` (R195) -/
  | ldRegs (x : Reg)
  deriving DecidableEq, Repr

end Sys2Proof
end

