-- ==== Sys2Proof/WellFormed.lean ====
section
/-! DEFINITION. Which terms of `Instr` are instructions the hardware can be given. A register number,
a byte immediate and a row count are in range by their types; an address operand is a 16-bit value
whose upper four bits must be 0, since it comes from a 12-bit field (spec/30_encoding.md R91, R93). -/

namespace Sys2Proof

/-- An address operand fits the 12-bit field `nnn`: it is at most 4095 (R93). -/
def fitsNnn (nnn : Word) : Bool := nnn.toNat < 4096

/-- The instruction has an encoding: its address operand, where it has one, fits its field. -/
def Instr.wellFormed : Instr → Bool
  | .nop => true
  | .cls => true
  | .ret => true
  | .jp nnn => fitsNnn nnn
  | .call nnn => fitsNnn nnn
  | .seImm _ _ => true
  | .sneImm _ _ => true
  | .seReg _ _ => true
  | .ldImm _ _ => true
  | .addImm _ _ => true
  | .ldReg _ _ => true
  | .orReg _ _ => true
  | .andReg _ _ => true
  | .xorReg _ _ => true
  | .addReg _ _ => true
  | .subReg _ _ => true
  | .shr _ _ => true
  | .subn _ _ => true
  | .shl _ _ => true
  | .sneReg _ _ => true
  | .ldI nnn => fitsNnn nnn
  | .rnd _ _ => true
  | .drw _ _ _ => true
  | .skp _ => true
  | .sknp _ => true
  | .ldVxDt _ => true
  | .ldVxK _ => true
  | .ldDtVx _ => true
  | .ldStVx _ => true
  | .addI _ => true
  | .ldF _ => true
  | .ldB _ => true
  | .stRegs _ => true
  | .ldRegs _ => true

end Sys2Proof
end

