-- ==== Sys2Proof/Decode.lean ====
section
/-! DEFINITION. Decoding a 16-bit word (spec/30_encoding.md R91, R94), encoding an instruction
(R92, R95), and the opcode map itself as data (R95). -/

namespace Sys2Proof

/-! ### Fields (R91) -/

/-- `op = w[15:12]`, the opcode class. -/
def fieldOp (w : Word) : Nat := w.toNat / 4096

/-- `x = w[11:8]`. -/
def fieldX (w : Word) : Reg := ⟨w.toNat / 256 % 16, Nat.mod_lt _ (by decide)⟩

/-- `y = w[7:4]`. -/
def fieldY (w : Word) : Reg := ⟨w.toNat / 16 % 16, Nat.mod_lt _ (by decide)⟩

/-- `n = w[3:0]`. -/
def fieldN (w : Word) : Fin 16 := ⟨w.toNat % 16, Nat.mod_lt _ (by decide)⟩

/-- `kk = w[7:0]`. -/
def fieldKk (w : Word) : Byte := BitVec.ofNat 8 (w.toNat % 256)

/-- `w[7:0]` as the sub-opcode of the classes E and F. -/
def fieldLow (w : Word) : Nat := w.toNat % 256

/-- `zext_16(nnn)` with `nnn = w[11:0]` (R93). -/
def fieldNnn (w : Word) : Word := BitVec.ofNat 16 (w.toNat % 4096)

/-! ### Decoding (R94) -/

/-- Class 0: the full word is compared (R94). -/
def decodeClass0 (w : Word) : Option Instr :=
  if w = 0x0000 then some .nop
  else if w = 0x00E0 then some .cls
  else if w = 0x00EE then some .ret
  else none

/-- Class 8: the low nibble selects (R94). -/
def decodeClass8 (x y : Reg) (n : Nat) : Option Instr :=
  match n with
  | 0x0 => some (.ldReg x y)
  | 0x1 => some (.orReg x y)
  | 0x2 => some (.andReg x y)
  | 0x3 => some (.xorReg x y)
  | 0x4 => some (.addReg x y)
  | 0x5 => some (.subReg x y)
  | 0x6 => some (.shr x y)
  | 0x7 => some (.subn x y)
  | 0xE => some (.shl x y)
  | _ => none

/-- Class E: the low byte selects (R94). -/
def decodeClassE (x : Reg) (kk : Nat) : Option Instr :=
  match kk with
  | 0x9E => some (.skp x)
  | 0xA1 => some (.sknp x)
  | _ => none

/-- Class F: the low byte selects (R94). -/
def decodeClassF (x : Reg) (kk : Nat) : Option Instr :=
  match kk with
  | 0x07 => some (.ldVxDt x)
  | 0x0A => some (.ldVxK x)
  | 0x15 => some (.ldDtVx x)
  | 0x18 => some (.ldStVx x)
  | 0x1E => some (.addI x)
  | 0x29 => some (.ldF x)
  | 0x33 => some (.ldB x)
  | 0x55 => some (.stRegs x)
  | 0x65 => some (.ldRegs x)
  | _ => none

/-- The decode procedure of R94: dispatch on the top nibble, then on the low nibble or byte where
families overlap. `none` is an unrecognised word (R96). -/
def decodeInstr (w : Word) : Option Instr :=
  match fieldOp w with
  | 0x0 => decodeClass0 w
  | 0x1 => some (.jp (fieldNnn w))
  | 0x2 => some (.call (fieldNnn w))
  | 0x3 => some (.seImm (fieldX w) (fieldKk w))
  | 0x4 => some (.sneImm (fieldX w) (fieldKk w))
  | 0x5 => if fieldN w = 0 then some (.seReg (fieldX w) (fieldY w)) else none
  | 0x6 => some (.ldImm (fieldX w) (fieldKk w))
  | 0x7 => some (.addImm (fieldX w) (fieldKk w))
  | 0x8 => decodeClass8 (fieldX w) (fieldY w) (fieldN w).val
  | 0x9 => if fieldN w = 0 then some (.sneReg (fieldX w) (fieldY w)) else none
  | 0xA => some (.ldI (fieldNnn w))
  | 0xC => some (.rnd (fieldX w) (fieldKk w))
  | 0xD => some (.drw (fieldX w) (fieldY w) (fieldN w))
  | 0xE => decodeClassE (fieldX w) (fieldLow w)
  | 0xF => decodeClassF (fieldX w) (fieldLow w)
  | _ => none

/-- What the decoder answers on a word: one of the 34 instructions, or the word itself, named as
unrecognised (R96). -/
inductive Decoded where
  | instr (i : Instr)
  | unrecognised (w : Word)
  deriving DecidableEq, Repr

/-- Decode reads no state but the word and is total (spec/40_step_cycle.md R122). -/
def decodeWord (w : Word) : Decoded :=
  match decodeInstr w with
  | some i => .instr i
  | none => .unrecognised w

/-- The word of two bytes of memory, the byte at the lower address first: big-endian (spec/20_memory.md R62). -/
def wordOfBytes (hi lo : Byte) : Word := BitVec.ofNat 16 (hi.toNat * 256 + lo.toNat)

/-- Decoding any byte string: a whole word at its head, and the bytes left. Fewer than two bytes are
no word; nothing is decoded. -/
def decodeBytes : List Byte → Option (Decoded × List Byte)
  | hi :: lo :: rest => some (decodeWord (wordOfBytes hi lo), rest)
  | _ => none

/-! ### Encoding (R92, R95) -/

/-- Format `A`: class and 12-bit address. -/
def wordA (op : Nat) (nnn : Word) : Word := BitVec.ofNat 16 (op * 4096 + nnn.toNat % 4096)

/-- Format `XK`: class, register, byte. -/
def wordXK (op : Nat) (x : Reg) (kk : Byte) : Word := BitVec.ofNat 16 (op * 4096 + x.val * 256 + kk.toNat)

/-- Formats `XY` and `XYN`: class, two registers, low nibble. -/
def wordXYN (op : Nat) (x y : Reg) (n : Fin 16) : Word :=
  BitVec.ofNat 16 (op * 4096 + x.val * 256 + y.val * 16 + n.val)

/-- Format `X`: class, register, fixed low byte. -/
def wordX (op : Nat) (x : Reg) (low : Nat) : Word := BitVec.ofNat 16 (op * 4096 + x.val * 256 + low)

/-- The word of an instruction. -/
def encode : Instr → Word
  | .nop => 0x0000
  | .cls => 0x00E0
  | .ret => 0x00EE
  | .jp nnn => wordA 0x1 nnn
  | .call nnn => wordA 0x2 nnn
  | .seImm x kk => wordXK 0x3 x kk
  | .sneImm x kk => wordXK 0x4 x kk
  | .seReg x y => wordXYN 0x5 x y 0x0
  | .ldImm x kk => wordXK 0x6 x kk
  | .addImm x kk => wordXK 0x7 x kk
  | .ldReg x y => wordXYN 0x8 x y 0x0
  | .orReg x y => wordXYN 0x8 x y 0x1
  | .andReg x y => wordXYN 0x8 x y 0x2
  | .xorReg x y => wordXYN 0x8 x y 0x3
  | .addReg x y => wordXYN 0x8 x y 0x4
  | .subReg x y => wordXYN 0x8 x y 0x5
  | .shr x y => wordXYN 0x8 x y 0x6
  | .subn x y => wordXYN 0x8 x y 0x7
  | .shl x y => wordXYN 0x8 x y 0xE
  | .sneReg x y => wordXYN 0x9 x y 0x0
  | .ldI nnn => wordA 0xA nnn
  | .rnd x kk => wordXK 0xC x kk
  | .drw x y n => wordXYN 0xD x y n
  | .skp x => wordX 0xE x 0x9E
  | .sknp x => wordX 0xE x 0xA1
  | .ldVxDt x => wordX 0xF x 0x07
  | .ldVxK x => wordX 0xF x 0x0A
  | .ldDtVx x => wordX 0xF x 0x15
  | .ldStVx x => wordX 0xF x 0x18
  | .addI x => wordX 0xF x 0x1E
  | .ldF x => wordX 0xF x 0x29
  | .ldB x => wordX 0xF x 0x33
  | .stRegs x => wordX 0xF x 0x55
  | .ldRegs x => wordX 0xF x 0x65

/-- The two bytes of a word as memory holds them (R62). -/
def bytesOfWord (w : Word) : List Byte :=
  [BitVec.ofNat 8 (w.toNat / 256), BitVec.ofNat 8 (w.toNat % 256)]

/-! ### The opcode map as data (R95) -/

/-- One row of the opcode map: its number and the columns match and mask. -/
structure OpcodeRow where
  number : Nat
  pattern : Word
  mask : Word
  deriving DecidableEq, Repr

/-- The rows of R95 that are matched on the full word or on the class alone. -/
def opcodeRowsByClass : List OpcodeRow :=
  [⟨1, 0x0000, 0xFFFF⟩, ⟨2, 0x00E0, 0xFFFF⟩, ⟨3, 0x00EE, 0xFFFF⟩, ⟨4, 0x1000, 0xF000⟩,
   ⟨5, 0x2000, 0xF000⟩, ⟨6, 0x3000, 0xF000⟩, ⟨7, 0x4000, 0xF000⟩, ⟨9, 0x6000, 0xF000⟩,
   ⟨10, 0x7000, 0xF000⟩, ⟨21, 0xA000, 0xF000⟩, ⟨22, 0xC000, 0xF000⟩, ⟨23, 0xD000, 0xF000⟩]

/-- The rows of R95 that are matched on the class and the low nibble. -/
def opcodeRowsByNibble : List OpcodeRow :=
  [⟨8, 0x5000, 0xF00F⟩, ⟨11, 0x8000, 0xF00F⟩, ⟨12, 0x8001, 0xF00F⟩, ⟨13, 0x8002, 0xF00F⟩,
   ⟨14, 0x8003, 0xF00F⟩, ⟨15, 0x8004, 0xF00F⟩, ⟨16, 0x8005, 0xF00F⟩, ⟨17, 0x8006, 0xF00F⟩,
   ⟨18, 0x8007, 0xF00F⟩, ⟨19, 0x800E, 0xF00F⟩, ⟨20, 0x9000, 0xF00F⟩]

/-- The rows of R95 that are matched on the class and the low byte. -/
def opcodeRowsByByte : List OpcodeRow :=
  [⟨24, 0xE09E, 0xF0FF⟩, ⟨25, 0xE0A1, 0xF0FF⟩, ⟨26, 0xF007, 0xF0FF⟩, ⟨27, 0xF00A, 0xF0FF⟩,
   ⟨28, 0xF015, 0xF0FF⟩, ⟨29, 0xF018, 0xF0FF⟩, ⟨30, 0xF01E, 0xF0FF⟩, ⟨31, 0xF029, 0xF0FF⟩,
   ⟨32, 0xF033, 0xF0FF⟩, ⟨33, 0xF055, 0xF0FF⟩, ⟨34, 0xF065, 0xF0FF⟩]

/-- The 34 rows of R95. -/
def opcodeMap : List OpcodeRow := opcodeRowsByClass ++ opcodeRowsByNibble ++ opcodeRowsByByte

/-- The number of an instruction's row in the opcode map (R95). -/
def Instr.row : Instr → Nat
  | .nop => 1
  | .cls => 2
  | .ret => 3
  | .jp _ => 4
  | .call _ => 5
  | .seImm _ _ => 6
  | .sneImm _ _ => 7
  | .seReg _ _ => 8
  | .ldImm _ _ => 9
  | .addImm _ _ => 10
  | .ldReg _ _ => 11
  | .orReg _ _ => 12
  | .andReg _ _ => 13
  | .xorReg _ _ => 14
  | .addReg _ _ => 15
  | .subReg _ _ => 16
  | .shr _ _ => 17
  | .subn _ _ => 18
  | .shl _ _ => 19
  | .sneReg _ _ => 20
  | .ldI _ => 21
  | .rnd _ _ => 22
  | .drw _ _ _ => 23
  | .skp _ => 24
  | .sknp _ => 25
  | .ldVxDt _ => 26
  | .ldVxK _ => 27
  | .ldDtVx _ => 28
  | .ldStVx _ => 29
  | .addI _ => 30
  | .ldF _ => 31
  | .ldB _ => 32
  | .stRegs _ => 33
  | .ldRegs _ => 34

/-! ### The host's table words -/

/-- The low `nbits` bits of `w`, laid out as memory holds a word: the more significant byte at the
lower address (R62). The bits above `nbits` are 0. -/
def tableBytes (nbits w : Nat) : List Byte := bytesOfWord (BitVec.ofNat 16 (w % 2 ^ nbits))

/-- The instruction the decoder reads from a table word; `none` where it answers unrecognised. -/
def decodeTableWord (nbits w : Nat) : Option Instr :=
  match decodeBytes (tableBytes nbits w) with
  | some (.instr i, _) => some i
  | _ => none

end Sys2Proof
end

