-- ==== Sys2Proof/Machine/Defaults.lean ====
section
/-! DEFINITION. The default parameters (spec/00_scope.md R7), the default font (spec/20_memory.md R77)
and the reset content of main memory (spec/10_state.md R40), which is what an unlisted address reads as. -/

namespace Sys2Proof.Machine

/-- The glyphs of digits 0 to 7 (R77, marked there as general knowledge; notes/assumptions/5.md). -/
def glyphs0to7 : List (List Byte) :=
  [[0xF0, 0x90, 0x90, 0x90, 0xF0], [0x20, 0x60, 0x20, 0x20, 0x70],
   [0xF0, 0x10, 0xF0, 0x80, 0xF0], [0xF0, 0x10, 0xF0, 0x10, 0xF0],
   [0x90, 0x90, 0xF0, 0x10, 0x10], [0xF0, 0x80, 0xF0, 0x10, 0xF0],
   [0xF0, 0x80, 0xF0, 0x90, 0xF0], [0xF0, 0x10, 0x20, 0x40, 0x40]]

/-- The glyphs of digits 8 to F (R77; glyph A is the source's, the others as above). -/
def glyphs8toF : List (List Byte) :=
  [[0xF0, 0x90, 0xF0, 0x90, 0xF0], [0xF0, 0x90, 0xF0, 0x10, 0xF0],
   [0xF0, 0x90, 0xF0, 0x90, 0x90], [0xE0, 0x90, 0xE0, 0x90, 0xE0],
   [0xF0, 0x80, 0x80, 0x80, 0xF0], [0xE0, 0x90, 0x90, 0x90, 0xE0],
   [0xF0, 0x80, 0xF0, 0x80, 0xF0], [0xF0, 0x80, 0xF0, 0x80, 0x80]]

/-- The default of the parameter `FONT[0..79]` (R77). -/
def defaultFont : Font := ⟨(glyphs0to7 ++ glyphs8toF).flatten.toArray, by decide⟩

/-- The defaults of the parameters (R7). -/
def defaultParams : Params := ⟨.nonblockingLast, .wrap, defaultFont⟩

/-- The content of address `a` after reset (R40): the font from `FONT_BASE` on, 0 elsewhere. It is what
an address the memory does not list reads as. -/
def resetByte (font : Font) (a : Nat) : Byte :=
  if h : Config.fontBase ≤ a ∧ a - Config.fontBase < Config.fontBytes then font[a - Config.fontBase]'h.2 else 0

end Sys2Proof.Machine
end

