-- ==== Sys2Proof/Machine/State.lean ====
section
/-! DEFINITION. The state of the Interpreter (spec/10_state.md R20 to R40) as plain data, the reasons a
step can stop, and the state after reset. -/

namespace Sys2Proof.Machine

/-- Main memory (spec/20_memory.md R60): the bytes that differ from their reset content, each with its
address, addresses rising. An address it does not list reads as `resetByte`. The form is `Memory.wf`. -/
abbrev Memory := List Host.Cell

/-- The framebuffer (spec/44_display.md R214): 32 rows, top first, of 64 one-bit cells, leftmost first;
`FB[py * 64 + px]` is column `px` of row `py`. -/
abbrev Framebuffer := Vector (Vector (BitVec 1) Config.fbWidth) Config.fbHeight

/-- The state of the machine between two steps, and, while an instruction executes, between two phases
of one step (spec/40_step_cycle.md R120). -/
structure State where
  /-- `V[0..15]` (R21); `V[15]` is also the flag register (R22). -/
  v : Vector RegVal Config.numV
  /-- `I` (R23). -/
  i : IndexVal
  /-- `pc` (R24); during execution it already is the address of the following instruction. -/
  pc : PcVal
  /-- `sp`, the number of entries in use, 0..32 (R25). -/
  sp : Fin (Config.stackDepth + 1)
  /-- `stack[0..31]` (R26). -/
  stack : Vector PcVal Config.stackDepth
  /-- `DT` (R27). -/
  dt : TimerVal
  /-- `ST` (R28). -/
  st : TimerVal
  /-- `mem[0..4095]` (R29). -/
  mem : Memory
  /-- `FB[0..2047]` (R30). -/
  fb : Framebuffer
  /-- `draw_requested` (R33). -/
  drawRequested : Bool
  /-- `sound_requested` (R34). -/
  soundRequested : Bool
  /-- Output of the last step: the unrecognised word, if it had one (R35, spec/60 R251). -/
  warning : Option Word
  /-- Output of the last step: it executed `00E0` or `Dxyn` (R35). -/
  drawPulse : Bool
  /-- Output of the last step: its tick found `ST > 0` (R35). -/
  soundPulse : Bool
  /-- The inputs the host has supplied for the steps to come, the next step's first (R31, R32;
  notes/assumptions/2.md). -/
  inputs : List StepInput
  /-- The MODEL's own: the number of the next sample, which a free value is applied to
  (notes/assumptions/2.md). -/
  inputIndex : Nat
  /-- The parameters of the machine (spec/00_scope.md R7; notes/assumptions/3.md). -/
  params : Params
  deriving DecidableEq, Repr

/-- Why a step ends in a model fault (spec/60_exceptions.md R254). The hardware detects none of these;
the state after a fault is unspecified, so the outcome carries none. Each is SAFE: the model stops
where the hardware goes on (notes/assumptions/6.md). -/
inductive Fault where
  /-- `F_FETCH_RANGE(pc)`: raised by the fetch of any step that begins with `pc > 4094`. Safe. -/
  | fetchRange (pc : PcVal)
  /-- `F_DATA_RANGE(addr)`: raised by `Dxyn` (`n > 0`), `Fx33`, `Fx55` and `Fx65` at the first data
  address above 4095. Safe. -/
  | dataRange (addr : Nat)
  /-- `F_KEY_RANGE(V[x])`: raised by `Ex9E` and `ExA1` with `V[x] > 15`. Safe. -/
  | keyRange (value : RegVal)
  deriving DecidableEq, Repr

/-- Why a step has no meaning in this model. Every instruction has its meaning, so no step answers it. -/
inductive Refusal where
  /-- The instruction has no meaning yet: raised by an arm of `exec` alone. Safe. -/
  | notModelled (mnemonic : String)
  deriving DecidableEq, Repr

/-- The dark framebuffer. -/
def blankFb : Framebuffer := Vector.replicate Config.fbHeight (Vector.replicate Config.fbWidth 0)

/-- The state after reset under the parameters `p` (R40, spec/70 R280): every item at the value the
spec gives it; no step made and no input supplied yet (notes/assumptions/2.md, 4.md). -/
def State.resetWith (p : Params) : State where
  v := Vector.replicate Config.numV 0
  i := 0
  pc := BitVec.ofNat Config.pcBits Config.progBase
  sp := 0
  stack := Vector.replicate Config.stackDepth 0
  dt := 0
  st := 0
  mem := []
  fb := blankFb
  drawRequested := false
  soundRequested := false
  warning := none
  drawPulse := false
  soundPulse := false
  inputs := []
  inputIndex := 0
  params := p

/-- The state after reset under the spec's default parameters (R7, R40). -/
def State.reset : State := State.resetWith defaultParams

end Sys2Proof.Machine
end

