-- ==== Sys2Proof/Machine/Ops.lean ====
section
/-! DEFINITION. The named operations over registers, memory, stack, framebuffer, timers and inputs, and
the phases of a step around the execute phase. Notation of spec/00_scope.md R10.

The hardware has no exception entry and no return from one (spec/60_exceptions.md R257, R258), so there
is no such operation: what ends a step early is a model fault (R254). -/

namespace Sys2Proof.Machine

/-! ### Memory as data -/

/-- Read the byte at `a`: the listed one, or the reset content where none is listed. -/
def Memory.read (font : Font) : Memory → Nat → Byte
  | [], a => resetByte font a
  | c :: m, a => if c.1 = a then c.2 else Memory.read font m a

/-- Put a cell into a list of cells at its place by address. -/
def Memory.insert (c : Host.Cell) : Memory → Memory
  | [] => [c]
  | d :: m => if c.1 < d.1 then c :: d :: m else d :: Memory.insert c m

/-- Write `b` at `a`, keeping the canonical form: the old entry goes, and a new one comes only if `b`
differs from the reset content. -/
def Memory.write (font : Font) (m : Memory) (a : Nat) (b : Byte) : Memory :=
  let rest := m.filter (fun c => c.1 ≠ a)
  if b = resetByte font a then rest else Memory.insert (a, b) rest

/-- The canonical form: addresses strictly rising, all inside the memory, and no entry equal to what an
unlisted address reads as. -/
abbrev Memory.wf (font : Font) (m : Memory) : Prop :=
  m.Pairwise (fun c d => c.1 < d.1) ∧ ∀ c ∈ m, c.1 < Config.memSize ∧ c.2 ≠ resetByte font c.1

/-! ### Registers -/

/-- `V[x]` (R10, spec/10_state.md R21). -/
def State.getV (s : State) (x : Reg) : RegVal := s.v[x]

/-- `V[x] <- b` (R10). No register is hard-wired (R21). -/
def State.setV (s : State) (x : Reg) (b : RegVal) : State := { s with v := s.v.set x b }

/-- `FLAG_REG`: the number of the flag register `VF` (spec/00_scope.md R6, spec/10_state.md R22). -/
def flagReg : Reg := ⟨Config.flagReg, by decide⟩

/-- `V[15] <- b`, a flag written as a full byte (R22). -/
def State.setFlag (s : State) (b : RegVal) : State := s.setV flagReg b

/-- `I <- w` (spec/10_state.md R23). -/
def State.setI (s : State) (w : IndexVal) : State := { s with i := w }

/-- `pc <- target` (spec/10_state.md R24). -/
def State.setPc (s : State) (w : PcVal) : State := { s with pc := w }

/-- `DT <- b` (spec/10_state.md R27). -/
def State.setDt (s : State) (b : TimerVal) : State := { s with dt := b }

/-- `ST <- b` (spec/10_state.md R28). -/
def State.setSt (s : State) (b : TimerVal) : State := { s with st := b }

/-- The size of an instruction as a step of the program counter (R6 `INSTR_BYTES`). -/
def instrStep : PcVal := BitVec.ofNat Config.pcBits Config.instrBytes

/-- `pc <- (pc + 2) mod 65536`: the fetch's advance, and a taken skip (spec/41_flow.md R148). -/
def State.advance (s : State) : State := s.setPc (s.pc + instrStep)

/-- `pc <- (pc - 2) mod 65536`: back onto the instruction itself (spec/45_keys_timers.md R232). -/
def State.goBack (s : State) : State := s.setPc (s.pc - instrStep)

/-- A skip, taken or not (R148). -/
def State.skipIf (s : State) (c : Bool) : State := if c then s.advance else s

/-! ### Main memory -/

/-- The byte of main memory at `a`. -/
def State.byteAt (s : State) (a : Nat) : Byte := Memory.read s.params.font s.mem a

/-- The state with the byte at `a` replaced. -/
def State.setByte (s : State) (a : Nat) (b : Byte) : State :=
  { s with mem := Memory.write s.params.font s.mem a b }

/-- `MemRead(a, 1)`: faults outside 0..4095; the address is never wrapped (spec/20_memory.md R65). -/
def State.readByte (s : State) (a : Nat) : Except Fault Byte :=
  if a < Config.memSize then .ok (s.byteAt a) else .error (.dataRange a)

/-- `MemWrite(a, 1, b)`: faults outside 0..4095 (R65). -/
def State.writeByte (s : State) (a : Nat) (b : Byte) : Except Fault State :=
  if a < Config.memSize then .ok (s.setByte a b) else .error (.dataRange a)

/-- Write bytes to ascending addresses from `a` on, one at a time; the fault names the first address
outside (R65, R67). -/
def State.storeBytes (s : State) (a : Nat) : List Byte → Except Fault State
  | [] => .ok s
  | b :: bs =>
    match s.writeByte a b with
    | .ok t => t.storeBytes (a + 1) bs
    | .error f => .error f

/-- Read one byte into each of the listed registers, register `r` from `I + r`, in the order listed
(spec/43_index_memory.md R195). -/
def State.loadRegs (s : State) : List Reg → Except Fault State
  | [] => .ok s
  | r :: rs =>
    match s.readByte (s.i.toNat + r.val) with
    | .ok b => (s.setV r b).loadRegs rs
    | .error f => .error f

/-! ### The return-address stack -/

/-- Push `pc` if the stack is not full: `stack[sp] <- pc`, then `sp <- sp + 1`; nothing when it is full
(spec/10_state.md R26, spec/60_exceptions.md R252). -/
def State.pushPc (s : State) : State :=
  if h : s.sp.val < Config.stackDepth then
    { s with stack := s.stack.set s.sp.val s.pc, sp := ⟨s.sp.val + 1, Nat.succ_lt_succ h⟩ }
  else s

/-- Pop into `pc` if the stack is not empty: `sp <- sp - 1`, then `pc <- stack[sp]`; nothing when it is
empty. The popped entry stays in the array (spec/10_state.md R26, spec/60_exceptions.md R252). -/
def State.popPc (s : State) : State :=
  if h : 0 < s.sp.val then
    { s with sp := ⟨s.sp.val - 1, by omega⟩, pc := s.stack[s.sp.val - 1]'(by have := s.sp.isLt; omega) }
  else s

/-! ### The framebuffer -/

/-- `FB[p]` (spec/44_display.md R214). -/
def State.getFb (s : State) (p : Fin Config.fbCells) : BitVec 1 :=
  (s.fb[p.val / Config.fbWidth]'(by have := p.isLt; simp at *; omega))[p.val % Config.fbWidth]'(by simp; omega)

/-- `FB[p] <- b` (R214). -/
def State.setFb (s : State) (p : Fin Config.fbCells) (b : BitVec 1) : State :=
  have h : p.val / Config.fbWidth < Config.fbHeight := by have := p.isLt; simp at *; omega
  let row := s.fb[p.val / Config.fbWidth].set (p.val % Config.fbWidth) b (by simp; omega)
  { s with fb := s.fb.set (p.val / Config.fbWidth) row }

/-- Every cell 0 (spec/44_display.md R210). -/
def State.clearFb (s : State) : State := { s with fb := blankFb }

/-- `draw_requested <- 1`, and the pulse of the step (spec/10_state.md R33, R35). -/
def State.requestDraw (s : State) : State := { s with drawRequested := true, drawPulse := true }

/-! ### Inputs of the step (spec/10_state.md R31, R32; notes/assumptions/2.md) -/

/-- The 16 key states of this step: what the host supplied, else a free value. -/
def State.keys (s : State) : Keys :=
  match s.inputs with
  | inp :: _ => inp.keys
  | [] => Config.freeKeys s.inputIndex

/-- The random byte of this step: what the host supplied, else a free value. -/
def State.rnd (s : State) : Byte :=
  match s.inputs with
  | inp :: _ => inp.rnd
  | [] => Config.freeRandom s.inputIndex

/-- The next step has the next sample. -/
def State.nextInput (s : State) : State :=
  { s with inputs := s.inputs.tail, inputIndex := s.inputIndex + 1 }

/-! ### Outcomes -/

/-- The outcome of an instruction that can end in a model fault. -/
def finish : Except Fault State → Host.Outcome State Fault Refusal
  | .ok s => .next s
  | .error f => .fault f

/-- Go on with a next state; a stop stays as it is. -/
def onNext (o : Host.Outcome State Fault Refusal) (f : State → State) :
    Host.Outcome State Fault Refusal :=
  match o with
  | .next s => .next (f s)
  | .fault r => .fault r
  | .refused r => .refused r

/-! ### The phases of a step around the execute phase (spec/40_step_cycle.md R120) -/

/-- The fetch: the word at `pc` and `pc + 1`, big-endian, whatever the parity of `pc`; a fault when one
of the two is outside the memory (R121, spec/20_memory.md R62, R64, R66). -/
def State.fetch (s : State) : Except Fault Word :=
  if s.pc.toNat + 1 < Config.memSize then
    .ok (wordOfBytes (s.byteAt s.pc.toNat) (s.byteAt (s.pc.toNat + 1)))
  else .error (.fetchRange s.pc)

/-- The outputs of a step begin at none (spec/10_state.md R35: they depend on that step alone). -/
def State.clearOutputs (s : State) : State :=
  { s with warning := none, drawPulse := false, soundPulse := false }

/-- From the state between steps to the execute phase: `pc` advanced (R121), outputs cleared. -/
def State.beginStep (s : State) : State := s.clearOutputs.advance

/-- `warn(w)`: the decode warning, the whole effect of an unrecognised word (spec/30_encoding.md R96,
spec/60_exceptions.md R251). -/
def State.warn (s : State) (w : Word) : State := { s with warning := some w }

/-- A timer counts down by one and stays at 0 (R124). -/
def tickDown (b : TimerVal) : TimerVal := if b = 0 then 0 else b - 1

/-- The timer tick (R124): each non-zero timer is decremented; a non-zero `ST` also sets
`sound_requested` and the sound pulse of the step (spec/10_state.md R34, R35). -/
def State.tick (s : State) : State :=
  { s with
    dt := tickDown s.dt
    st := tickDown s.st
    soundRequested := s.soundRequested || s.st != 0
    soundPulse := s.soundPulse || s.st != 0 }

/-- From the end of the execute phase to the next step: the timer tick, and the sample is used up. -/
def State.endStep (s : State) : State := s.tick.nextInput

end Sys2Proof.Machine
end

