-- ==== Sys2Proof/Machine/Operands.lean ====
section
/-! DEFINITION. Operand forms: the address `I + k`, register ranges, key numbers, glyph addresses,
decimal digits and sprite pixels. -/

namespace Sys2Proof.Machine

/-- The one addressing mode: `I + k` on unbounded integers (spec/43_index_memory.md R196). -/
def State.addr (s : State) (k : Nat) : Nat := s.i.toNat + k

/-- The registers `V0..Vx`, ascending (spec/43_index_memory.md R194, R195). -/
def regsUpTo (x : Reg) : List Reg := (List.finRange Config.numV).take (x.val + 1)

/-- The values of `V0..Vx`, ascending. -/
def State.valuesUpTo (s : State) (x : Reg) : List RegVal := (regsUpTo x).map s.getV

/-- `V[x] * 5`, exact in 16 bits: the address of a glyph (spec/43_index_memory.md R192). -/
def glyphAddr (b : RegVal) : IndexVal := BitVec.ofNat Config.iBits (b.toNat * Config.glyphBytes)

/-- The hundreds, tens and ones of a byte (spec/43_index_memory.md R193). -/
def bcdDigits (b : RegVal) : List Byte :=
  [BitVec.ofNat 8 (b.toNat / 100), BitVec.ofNat 8 (b.toNat / 10 % 10), BitVec.ofNat 8 (b.toNat % 10)]

/-- `keys[k]`: key `k` is pressed (spec/10_state.md R31). -/
def keyPressed (keys : Keys) (k : Nat) : Bool := keys.getLsbD k

/-- The ascending scan of `Fx0A`: a later pressed key replaces an earlier one (spec/45 R232). -/
def lastPressed (keys : Keys) : Option Nat :=
  (List.range Config.numKeys).foldl (fun best k => if keyPressed keys k then some k else best) none

/-- The cell `py * 64 + px` (spec/44_display.md R214). -/
def cellIndex (px : Fin Config.fbWidth) (py : Fin Config.fbHeight) : Fin Config.fbCells :=
  ⟨py.val * Config.fbWidth + px.val, by have := px.isLt; have := py.isLt; simp at *; omega⟩

/-- Edge mode `wrap`: each coordinate modulo the grid (spec/44_display.md R212). -/
def edgeWrap (cx cy : Nat) : Option (Fin Config.fbCells) :=
  some (cellIndex ⟨cx % Config.fbWidth, Nat.mod_lt _ (by decide)⟩ ⟨cy % Config.fbHeight, Nat.mod_lt _ (by decide)⟩)

/-- Edge mode `clip`: a pixel off the grid is dropped (spec/44_display.md R213). -/
def edgeClip (cx cy : Nat) : Option (Fin Config.fbCells) :=
  if h : cx < Config.fbWidth ∧ cy < Config.fbHeight then some (cellIndex ⟨cx, h.1⟩ ⟨cy, h.2⟩) else none

/-- The cell a sprite pixel falls on, if it is visible (spec/44_display.md R211). -/
def edgeCell (mode : DrawEdge) (cx cy : Nat) : Option (Fin Config.fbCells) :=
  match mode with
  | .wrap => edgeWrap cx cy
  | .clip => edgeClip cx cy

/-- Bit `7 - col` of a sprite byte: column 0 is the most significant bit (spec/44_display.md R211). -/
def spriteBit (b : Byte) (col : Nat) : Bool := b.getLsbD (7 - col)

end Sys2Proof.Machine
end

