-- ==== Sys2Proof/Machine/Alu.lean ====
section
/-! DEFINITION. Register loads, ALU operations and the random byte (spec/42_alu.md). Each effect is a
sequential program: where a flag and a result are both written, the flag is written first, and a register
named after that is read with its new value (spec/00_scope.md R11; notes/assumptions/8.md). -/

namespace Sys2Proof.Machine

/-- `LD Vx, kk` (R160). -/
def execLdImm (x : Reg) (kk : Byte) (s : State) : Host.Outcome State Fault Refusal := .next (s.setV x kk)

/-- `ADD Vx, kk` (R161): no flag. -/
def execAddImm (x : Reg) (kk : Byte) (s : State) : Host.Outcome State Fault Refusal :=
  .next (s.setV x (s.getV x + kk))

/-- `LD Vx, Vy` (R162). -/
def execLdReg (x y : Reg) (s : State) : Host.Outcome State Fault Refusal := .next (s.setV x (s.getV y))

/-- `OR Vx, Vy` (R163): the flag register is left alone. -/
def execOrReg (x y : Reg) (s : State) : Host.Outcome State Fault Refusal :=
  .next (s.setV x (s.getV x ||| s.getV y))

/-- `AND Vx, Vy` (R164): the flag register is left alone. -/
def execAndReg (x y : Reg) (s : State) : Host.Outcome State Fault Refusal :=
  .next (s.setV x (s.getV x &&& s.getV y))

/-- `XOR Vx, Vy` (R165): the flag register is left alone. -/
def execXorReg (x y : Reg) (s : State) : Host.Outcome State Fault Refusal :=
  .next (s.setV x (s.getV x ^^^ s.getV y))

/-- `ADD Vx, Vy` (R166): the sum is taken before any write. -/
def execAddReg (x y : Reg) (s : State) : Host.Outcome State Fault Refusal :=
  let sum := s.getV x + s.getV y
  .next ((s.setFlag (carryFlag (s.getV x) (s.getV y))).setV x sum)

/-- `SUB Vx, Vy` (R167): both operands are read again after the flag is written. -/
def execSubReg (x y : Reg) (s : State) : Host.Outcome State Fault Refusal :=
  let t := s.setFlag (greaterFlag (s.getV x) (s.getV y))
  .next (t.setV x (t.getV x - t.getV y))

/-- `SHR Vx` (R168): `y` is not used; `Vx` is read again after the flag is written. -/
def execShr (x _y : Reg) (s : State) : Host.Outcome State Fault Refusal :=
  let t := s.setFlag (lowBitFlag (s.getV x))
  .next (t.setV x (t.getV x >>> 1))

/-- `SUBN Vx, Vy` (R169): both operands are read again after the flag is written. -/
def execSubn (x y : Reg) (s : State) : Host.Outcome State Fault Refusal :=
  let t := s.setFlag (greaterFlag (s.getV y) (s.getV x))
  .next (t.setV x (t.getV y - t.getV x))

/-- `SHL Vx` (R170): `y` is not used; `Vx` is read again after the flag is written. -/
def execShl (x _y : Reg) (s : State) : Host.Outcome State Fault Refusal :=
  let t := s.setFlag (highBitFlag (s.getV x))
  .next (t.setV x (t.getV x <<< 1))

/-- `RND Vx, kk` (R171): the random byte of the step, masked. -/
def execRnd (x : Reg) (kk : Byte) (s : State) : Host.Outcome State Fault Refusal :=
  .next (s.setV x (s.rnd &&& kk))

end Sys2Proof.Machine
end

