-- ==== Sys2Proof/Machine/Display.lean ====
section
/-! DEFINITION. Clear and sprite draw (spec/44_display.md). The draw is the loop of R211 read
sequentially: the position registers are read for every set bit, after the flag was cleared and after
any collision write (spec/00_scope.md R11; notes/assumptions/8.md). -/

namespace Sys2Proof.Machine

/-- `CLS` (R210). -/
def execCls (s : State) : Host.Outcome State Fault Refusal := .next s.clearFb.requestDraw

/-- Toggle one visible cell; a lit one sets the flag before the XOR (R211). -/
def State.hitCell (s : State) (p : Fin Config.fbCells) : State :=
  let t := if s.getFb p = 1 then s.setFlag 1 else s
  t.setFb p (t.getFb p ^^^ 1)

/-- One set bit of a sprite at row `row` and column `col` (R211). -/
def State.drawBit (x y : Reg) (row col : Nat) (s : State) : State :=
  match edgeCell s.params.drawEdge ((s.getV x).toNat + col) ((s.getV y).toNat + row) with
  | some p => s.hitCell p
  | none => s

/-- One row of a sprite: its eight bits, most significant first; a 0 bit touches nothing (R211). -/
def State.drawRow (x y : Reg) (row : Nat) (b : Byte) (s : State) : State :=
  (List.range 8).foldl (fun t col => if spriteBit b col then t.drawBit x y row col else t) s

/-- `left` rows of a sprite from row `row` on, each byte read before its row is drawn (R211). -/
def State.drawRows (x y : Reg) : (left row : Nat) → State → Except Fault State
  | 0, _, s => .ok s
  | left + 1, row, s =>
    match s.readByte (s.addr row) with
    | .ok b => State.drawRows x y left (row + 1) (s.drawRow x y row b)
    | .error f => .error f

/-- `DRW Vx, Vy, n` (R211). -/
def execDrw (x y : Reg) (n : Fin 16) (s : State) : Host.Outcome State Fault Refusal :=
  finish (State.drawRows x y n.val 0 (s.setFlag 0).requestDraw)

end Sys2Proof.Machine
end

