-- ==== Sys2Proof/Machine/Flow.lean ====
section
/-! DEFINITION. Control flow (spec/41_flow.md): `0000`, `00EE`, `1nnn`, `2nnn`, `3xkk`, `4xkk`, `5xy0`,
`9xy0`. Execute phase only: `pc` already is the address of the following instruction. -/

namespace Sys2Proof.Machine

/-- `NOP` (R140). -/
def execNop (s : State) : Host.Outcome State Fault Refusal := .next s

/-- `RET` (R141): pops into `pc`; nothing when the stack is empty. -/
def execRet (s : State) : Host.Outcome State Fault Refusal := .next s.popPc

/-- `JP nnn` (R142). -/
def execJp (nnn : Word) (s : State) : Host.Outcome State Fault Refusal := .next (s.setPc nnn)

/-- `CALL nnn` (R143): pushes `pc` unless the stack is full; jumps in either case. -/
def execCall (nnn : Word) (s : State) : Host.Outcome State Fault Refusal := .next (s.pushPc.setPc nnn)

/-- `SE Vx, kk` (R144). -/
def execSeImm (x : Reg) (kk : Byte) (s : State) : Host.Outcome State Fault Refusal :=
  .next (s.skipIf (decide (s.getV x = kk)))

/-- `SNE Vx, kk` (R145). -/
def execSneImm (x : Reg) (kk : Byte) (s : State) : Host.Outcome State Fault Refusal :=
  .next (s.skipIf (decide (s.getV x ≠ kk)))

/-- `SE Vx, Vy` (R146). -/
def execSeReg (x y : Reg) (s : State) : Host.Outcome State Fault Refusal :=
  .next (s.skipIf (decide (s.getV x = s.getV y)))

/-- `SNE Vx, Vy` (R147). -/
def execSneReg (x y : Reg) (s : State) : Host.Outcome State Fault Refusal :=
  .next (s.skipIf (decide (s.getV x ≠ s.getV y)))

end Sys2Proof.Machine
end

