-- ==== Sys2Proof/Machine/IndexMemory.lean ====
section
/-! DEFINITION. The index register and memory transfers (spec/43_index_memory.md). None changes `I` but
the three that set it, and none touches `pc`. -/

namespace Sys2Proof.Machine

/-- `LD I, nnn` (R190). -/
def execLdI (nnn : Word) (s : State) : Host.Outcome State Fault Refusal := .next (s.setI nnn)

/-- `ADD I, Vx` (R191): modulo 65536, no flag. -/
def execAddI (x : Reg) (s : State) : Host.Outcome State Fault Refusal :=
  .next (s.setI (s.i + (s.getV x).setWidth Config.iBits))

/-- `LD F, Vx` (R192): the whole byte is multiplied. -/
def execLdF (x : Reg) (s : State) : Host.Outcome State Fault Refusal := .next (s.setI (glyphAddr (s.getV x)))

/-- `LD B, Vx` (R193). -/
def execLdB (x : Reg) (s : State) : Host.Outcome State Fault Refusal :=
  finish (s.storeBytes (s.addr 0) (bcdDigits (s.getV x)))

/-- `LD [I], Vx` (R194): `V0..Vx` to ascending addresses. -/
def execStRegs (x : Reg) (s : State) : Host.Outcome State Fault Refusal :=
  finish (s.storeBytes (s.addr 0) (s.valuesUpTo x))

/-- `LD Vx, [I]` (R195): `V0..Vx` from ascending addresses. -/
def execLdRegs (x : Reg) (s : State) : Host.Outcome State Fault Refusal := finish (s.loadRegs (regsUpTo x))

end Sys2Proof.Machine
end

