-- ==== Sys2Proof/Machine/KeysTimers.lean ====
section
/-! DEFINITION. Key tests, key wait and timer access (spec/45_keys_timers.md). The timer tick of the
same step comes after the execute phase (spec/40_step_cycle.md R124). -/

namespace Sys2Proof.Machine

/-- A key test: `F_KEY_RANGE` above 15, else a skip when key `V[x]` is in the state `wanted` (R230, R231). -/
def skipOnKey (x : Reg) (wanted : Bool) (s : State) : Except Fault State :=
  if (s.getV x).toNat < Config.numKeys then
    .ok (s.skipIf (keyPressed s.keys (s.getV x).toNat == wanted))
  else .error (.keyRange (s.getV x))

/-- `SKP Vx` (R230). -/
def execSkp (x : Reg) (s : State) : Host.Outcome State Fault Refusal := finish (skipOnKey x true s)

/-- `SKNP Vx` (R231). -/
def execSknp (x : Reg) (s : State) : Host.Outcome State Fault Refusal := finish (skipOnKey x false s)

/-- No key is pressed: go on, or go back onto the instruction (R232). -/
def State.noKey (s : State) : State :=
  match s.params.keyWait with
  | .nonblockingLast => s
  | .blockingRetry => s.goBack

/-- `LD Vx, K` (R232): the highest pressed key, else as the parameter says. -/
def execLdVxK (x : Reg) (s : State) : Host.Outcome State Fault Refusal :=
  .next (match lastPressed s.keys with
    | some k => s.setV x (BitVec.ofNat Config.vBits k)
    | none => s.noKey)

/-- `LD Vx, DT` (R233): the value before the tick of this step. -/
def execLdVxDt (x : Reg) (s : State) : Host.Outcome State Fault Refusal := .next (s.setV x s.dt)

/-- `LD DT, Vx` (R234). -/
def execLdDtVx (x : Reg) (s : State) : Host.Outcome State Fault Refusal := .next (s.setDt (s.getV x))

/-- `LD ST, Vx` (R235). -/
def execLdStVx (x : Reg) (s : State) : Host.Outcome State Fault Refusal := .next (s.setSt (s.getV x))

end Sys2Proof.Machine
end

