-- ==== Sys2Proof/Machine/Step.lean ====
section
/-! DEFINITION. One step (spec/40_step_cycle.md R120): fetch, decode, execute, timer tick. -/

namespace Sys2Proof.Machine

/-- The execute phase of a decoded word: the instruction's meaning, or the decode warning and nothing
else (R123). -/
def execDecoded (d : Decoded) (s : State) : Host.Outcome State Fault Refusal :=
  match d with
  | .instr i => exec i s
  | .unrecognised w => .next (s.warn w)

/-- `step` (R120): a fetch fault ends it at once; a fault of the execute phase ends it before the tick. -/
def step (s : State) : Host.Outcome State Fault Refusal :=
  match s.fetch with
  | .error f => .fault f
  | .ok w => onNext (execDecoded (decodeWord w) s.beginStep) State.endStep

/-- The state with a table word stored where the next step fetches it: at `pc` and `pc + 1`. Where these
are outside the memory nothing can be stored and nothing is. -/
def State.withFetchWord (s : State) (nbits w : Nat) : State :=
  match tableBytes nbits w with
  | [hi, lo] =>
    if s.pc.toNat + 1 < Config.memSize then (s.setByte s.pc.toNat hi).setByte (s.pc.toNat + 1) lo else s
  | _ => s

end Sys2Proof.Machine
end

