-- ==== Sys2Proof/Machine/HostPorts.lean ====
section
/-! DEFINITION. What the host does between steps (spec/10_state.md R36, spec/70_reset_and_hazards.md
R280 to R286). The framebuffer and the two flags are read off the state. -/

namespace Sys2Proof.Machine

/-- `reset` from any state: everything but the inputs, which the host owns, and the parameters (R280,
spec/10_state.md R40). -/
def State.hostReset (s : State) : State :=
  { State.resetWith s.params with inputs := s.inputs, inputIndex := s.inputIndex }

/-- Copy bytes to ascending addresses from `a` on. -/
def State.copyBytes (s : State) (a : Nat) : List Byte → State
  | [] => s
  | b :: bs => (s.setByte a b).copyBytes (a + 1) bs

/-- `load(bytes)`: at most `PROG_MAX` bytes to `PROG_BASE` on, the rest dropped; answers how many (R281). -/
def State.load (s : State) (bytes : List Byte) : State × Nat :=
  (s.copyBytes Config.progBase (bytes.take Config.progMax), min bytes.length Config.progMax)

/-- `draw_ack` (spec/10_state.md R33, R36). -/
def State.drawAck (s : State) : State := { s with drawRequested := false }

/-- `sound_ack` (spec/10_state.md R34, R36). -/
def State.soundAck (s : State) : State := { s with soundRequested := false }

/-- Supply the key states and the random byte of one more step to come (R31, R32, R36). -/
def State.supply (s : State) (inp : StepInput) : State := { s with inputs := s.inputs ++ [inp] }

/-- The host's moves (R285). -/
inductive HostAction where
  | reset
  | load (bytes : List Byte)
  | drawAck
  | soundAck
  | supply (inp : StepInput)
  deriving DecidableEq, Repr

/-- The state after a move of the host. -/
def State.hostMove (s : State) : HostAction → State
  | .reset => s.hostReset
  | .load bytes => (s.load bytes).1
  | .drawAck => s.drawAck
  | .soundAck => s.soundAck
  | .supply inp => s.supply inp

end Sys2Proof.Machine
end

