-- ==== Sys2Proof/Safety.lean ====
section
/-! DEFINITION. The terms claims are stated in: the items of the state, what a transition leaves
unchanged, which items each instruction may write (spec/10_state.md R20 to R36), the invariant of the
machine, its reachable states, and the pixels of a sprite. -/

namespace Sys2Proof.Machine

/-! ### Frames -/

/-- An item of the state, down to one register, one stack entry, one byte of memory, one cell. -/
inductive Item where
  | v (r : Reg)
  | i
  | pc
  | sp
  | stackEntry (k : Fin Config.stackDepth)
  | dt
  | st
  | byte (a : Nat)
  | cell (p : Fin Config.fbCells)
  | drawRequested
  | soundRequested
  | warning
  | drawPulse
  | soundPulse
  | inputs
  | inputIndex
  | params
  deriving DecidableEq, Repr

/-- The item holds the same in both states. -/
def Item.same (s t : State) : Item → Prop
  | .v r => t.getV r = s.getV r
  | .i => t.i = s.i
  | .pc => t.pc = s.pc
  | .sp => t.sp = s.sp
  | .stackEntry k => t.stack[k] = s.stack[k]
  | .dt => t.dt = s.dt
  | .st => t.st = s.st
  | .byte a => t.byteAt a = s.byteAt a
  | .cell p => t.getFb p = s.getFb p
  | .drawRequested => t.drawRequested = s.drawRequested
  | .soundRequested => t.soundRequested = s.soundRequested
  | .warning => t.warning = s.warning
  | .drawPulse => t.drawPulse = s.drawPulse
  | .soundPulse => t.soundPulse = s.soundPulse
  | .inputs => t.inputs = s.inputs
  | .inputIndex => t.inputIndex = s.inputIndex
  | .params => t.params = s.params

/-- From `s` to `t` nothing changes but items that `may` names: every other register, stack entry, byte
of memory, framebuffer cell, timer, flag, output, input and parameter holds the same. -/
def ChangesOnly (may : Item → Prop) (s t : State) : Prop := ∀ it : Item, ¬ may it → it.same s t

/-! ### Sprites (spec/44_display.md R211, R215) -/

/-- Bit `col` of row `row` of the `n`-row sprite at `I` is set, and falls on the visible cell `p` when the
sprite is placed with column origin `ox` and row origin `oy`. -/
def State.spriteBitOn (s : State) (ox oy n row col : Nat) (p : Fin Config.fbCells) : Prop :=
  row < n ∧ col < 8 ∧ spriteBit (s.byteAt (s.addr row)) col = true ∧
    edgeCell s.params.drawEdge (ox + col) (oy + row) = some p

/-- Some set bit of the `n`-row sprite at `I`, placed with column origin `ox` and row origin `oy`, falls
on the visible cell `p`. -/
def State.spriteCovers (s : State) (ox oy n : Nat) (p : Fin Config.fbCells) : Prop :=
  ∃ row col, s.spriteBitOn ox oy n row col p

/-- What a position register reads while a draw has the flag register at `flag` (R211 (g)). -/
def State.origin (s : State) (flag : Nat) (x : Reg) : Nat := if x = flagReg then flag else (s.getV x).toNat

/-! ### Who may write what -/

/-- The items the execute phase of an instruction may write: the column "written by" of R20, the
registers of R21, the flag register of R22, and the pulse of R35, each at the place the instruction gives
it in the state it executes in: a stored byte at `I + k` (spec/43_index_memory.md R196), a pushed entry at
`sp` (R26), a cell some set bit of the sprite falls on while the flag register is 0 or 1 (R211 (g)). -/
def mayWrite (s : State) : Instr → Item → Prop
  | .nop, _ => False
  | .cls, it => (∃ p, it = .cell p) ∨ it = .drawRequested ∨ it = .drawPulse
  | .ret, it => 0 < s.sp.val ∧ (it = .pc ∨ it = .sp)
  | .jp _, it => it = .pc
  | .call _, it => it = .pc ∨ it = .sp ∨ ∃ k, k.val = s.sp.val ∧ it = .stackEntry k
  | .seImm _ _, it => it = .pc
  | .sneImm _ _, it => it = .pc
  | .seReg _ _, it => it = .pc
  | .ldImm x _, it => it = .v x
  | .addImm x _, it => it = .v x
  | .ldReg x _, it => it = .v x
  | .orReg x _, it => it = .v x
  | .andReg x _, it => it = .v x
  | .xorReg x _, it => it = .v x
  | .addReg x _, it => it = .v x ∨ it = .v flagReg
  | .subReg x _, it => it = .v x ∨ it = .v flagReg
  | .shr x _, it => it = .v x ∨ it = .v flagReg
  | .subn x _, it => it = .v x ∨ it = .v flagReg
  | .shl x _, it => it = .v x ∨ it = .v flagReg
  | .sneReg _ _, it => it = .pc
  | .ldI _, it => it = .i
  | .rnd x _, it => it = .v x
  | .drw x y n, it => it = .v flagReg ∨ it = .drawRequested ∨ it = .drawPulse ∨
      ∃ flag p, flag ≤ 1 ∧ s.spriteCovers (s.origin flag x) (s.origin flag y) n.val p ∧ it = .cell p
  | .skp _, it => it = .pc
  | .sknp _, it => it = .pc
  | .ldVxDt x, it => it = .v x
  | .ldVxK x, it => if s.keys = 0 then it = .pc else it = .v x
  | .ldDtVx _, it => it = .dt
  | .ldStVx _, it => it = .st
  | .addI _, it => it = .i
  | .ldF _, it => it = .i
  | .ldB _, it => ∃ k, k < 3 ∧ it = .byte (s.addr k)
  | .stRegs x, it => ∃ r : Reg, r ≤ x ∧ it = .byte (s.addr r.val)
  | .ldRegs x, it => ∃ r, r ≤ x ∧ it = .v r

/-! ### The invariant and the reachable states -/

/-- What holds between steps: memory in canonical form (so no cell outside 0..4095), every stack entry
at most 4096 (spec/41_flow.md R141), `pc` at most 4098 (spec/20_memory.md R66, spec/41_flow.md R148),
and the font's fixed bytes (spec/20_memory.md R77). That `sp` is in 0..32, that a cell is 0 or 1 and that
a register fits its width (spec/10_state.md R37) the types say. -/
def State.Inv (s : State) : Prop :=
  Memory.wf s.params.font s.mem ∧
  (∀ k : Fin Config.stackDepth, s.stack[k].toNat ≤ 4096) ∧
  s.pc.toNat ≤ 4098 ∧
  s.params.wf

/-- The states of a run (spec/70_reset_and_hazards.md R282, R285): it begins with a reset, and goes on
by steps and by moves of the host between steps. -/
inductive Reachable : State → Prop where
  | reset (p : Params) (hp : p.wf) : Reachable (State.resetWith p)
  | step (s t : State) (hs : Reachable s) (h : Machine.step s = .next t) : Reachable t
  | host (s : State) (a : HostAction) (hs : Reachable s) : Reachable (s.hostMove a)

/-! ### When a step faults (spec/60_exceptions.md R254) -/

/-- The first address of `I`, `I + 1`, ... outside the memory. -/
def State.firstOutside (s : State) : Nat := max s.i.toNat Config.memSize

/-- The condition under which the execute phase of an instruction raises a fault: the table of R254. -/
def raises : Instr → State → Fault → Prop
  | .drw _ _ n, s, f => 0 < n.val ∧ 4095 < s.i.toNat + (n.val - 1) ∧ f = .dataRange s.firstOutside
  | .ldB _, s, f => 4095 < s.i.toNat + 2 ∧ f = .dataRange s.firstOutside
  | .stRegs x, s, f => 4095 < s.i.toNat + x.val ∧ f = .dataRange s.firstOutside
  | .ldRegs x, s, f => 4095 < s.i.toNat + x.val ∧ f = .dataRange s.firstOutside
  | .skp x, s, f => 15 < (s.getV x).toNat ∧ f = .keyRange (s.getV x)
  | .sknp x, s, f => 15 < (s.getV x).toNat ∧ f = .keyRange (s.getV x)
  | _, _, _ => False

end Sys2Proof.Machine
end

