-- ==== Sys2Proof/Certificates/Slice0/Obligations.lean ====
section
/-! DEFINITION. The statements for the provers. Each docstring names the rules of spec/ it formalises.
`ChangesOnly` is the frame: every register, stack entry, byte of memory, framebuffer cell, timer, flag,
output, input and parameter it does not name is unchanged. -/

open Sys2Proof Sys2Proof.Machine

/-! ### Encoding (spec/30_encoding.md) -/

/-- Words written out from the encodings of R95, one or more of every format, decode to the instructions
they stand for, and words of R97 to no instruction. -/
def Obligations.SpecWordsDecode : Prop :=
  decodeWord 0x00E0 = .instr .cls ∧ decodeWord 0x00EE = .instr .ret ∧ decodeWord 0x0000 = .instr .nop ∧
  decodeWord 0x120A = .instr (.jp 0x20A) ∧ decodeWord 0x2ABC = .instr (.call 0xABC) ∧
  decodeWord 0x730A = .instr (.addImm 3 10) ∧ decodeWord 0x8F05 = .instr (.subReg 15 0) ∧
  decodeWord 0xA123 = .instr (.ldI 0x123) ∧ decodeWord 0xD12F = .instr (.drw 1 2 15) ∧
  decodeWord 0xE19E = .instr (.skp 1) ∧ decodeWord 0xF265 = .instr (.ldRegs 2) ∧
  decodeWord 0xB123 = .unrecognised 0xB123 ∧ decodeWord 0x5231 = .unrecognised 0x5231

/-- Decode after encode, for every instruction and every operand an encoding admits (R92, R95). -/
def Obligations.DecodeOfEncode : Prop :=
  ∀ i : Instr, i.wellFormed = true → decodeWord (encode i) = .instr i

/-- Encode after decode: a word that decodes is the word of what it decodes to, so no bit of it is
dropped, and what it decodes to is well-formed (R91, R92, R93). -/
def Obligations.EncodeOfDecoded : Prop :=
  ∀ (w : Word) (i : Instr), decodeWord w = .instr i → encode i = w ∧ i.wellFormed = true

/-- The decode procedure of R94 and the opcode map of R95 agree: a word decodes to the instruction of a
row exactly when its masked bits match the row. -/
def Obligations.DecoderFollowsOpcodeMap : Prop :=
  ∀ (w : Word) (r : OpcodeRow), r ∈ opcodeMap →
    ((∃ i, decodeWord w = .instr i ∧ i.row = r.number) ↔ w &&& r.mask = r.pattern)

/-- No word matches two rows of the opcode map (R94). -/
def Obligations.OpcodeRowsDisjoint : Prop :=
  ∀ (w : Word) (r q : OpcodeRow), r ∈ opcodeMap → q ∈ opcodeMap →
    w &&& r.mask = r.pattern → w &&& q.mask = q.pattern → r = q

/-- The unrecognised words, class by class: the table of R97. -/
def Obligations.UnrecognisedWordsByClass : Prop :=
  ∀ w : Word,
    let op := w.toNat / 4096
    let n := w.toNat % 16
    let kk := w.toNat % 256
    decodeWord w = .unrecognised w ↔
      (op = 0x0 ∧ w ≠ 0x0000 ∧ w ≠ 0x00E0 ∧ w ≠ 0x00EE) ∨
      (op = 0x5 ∧ n ≠ 0) ∨
      (op = 0x8 ∧ n ∈ [0x8, 0x9, 0xA, 0xB, 0xC, 0xD, 0xF]) ∨
      (op = 0x9 ∧ n ≠ 0) ∨
      op = 0xB ∨
      (op = 0xE ∧ kk ∉ [0x9E, 0xA1]) ∨
      (op = 0xF ∧ kk ∉ [0x07, 0x0A, 0x15, 0x18, 0x1E, 0x29, 0x33, 0x55, 0x65])

/-- A step on a word that matches no row completes: the fetch advance stands, the warning carries the
word, the timers tick, and nothing else changes (R96; spec/60_exceptions.md R251). -/
def Obligations.UnrecognisedWordIsWarnedNoOp : Prop :=
  ∀ (s : State) (w : Word), s.fetch = .ok w → (∀ r ∈ opcodeMap, w &&& r.mask ≠ r.pattern) →
    ∃ t, step s = .next t ∧ t.pc = s.pc + 2 ∧ t.warning = some w ∧ t.drawPulse = false ∧
      t.dt.toNat = s.dt.toNat - 1 ∧ t.st.toNat = s.st.toNat - 1 ∧
      t.soundRequested = (s.soundRequested || s.st != 0) ∧ t.soundPulse = (s.st != 0) ∧
      ChangesOnly (fun it => it = .pc ∨ it = .warning ∨ it = .drawPulse ∨ it = .dt ∨ it = .st ∨
        it = .soundRequested ∨ it = .soundPulse ∨ it = .inputs ∨ it = .inputIndex) s t

/-! ### The step cycle (spec/40_step_cycle.md, spec/20_memory.md) -/

/-- The fetch reads two bytes, the one at the lower address more significant, at any parity of `pc`
(R62, R64). -/
def Obligations.FetchIsBigEndian : Prop :=
  ∀ s : State, s.pc.toNat ≤ 4094 →
    ∃ w, s.fetch = .ok w ∧ w.toNat = (s.byteAt s.pc.toNat).toNat * 256 + (s.byteAt (s.pc.toNat + 1)).toNat

/-- A step that begins with `pc > 4094` is the fault `F_FETCH_RANGE(pc)`, and no other step is (R66). -/
def Obligations.FetchOutsideMemoryFaults : Prop :=
  (∀ s : State, 4094 < s.pc.toNat → step s = .fault (.fetchRange s.pc)) ∧
  (∀ (s : State) (p : Word), step s = .fault (.fetchRange p) → 4094 < s.pc.toNat ∧ p = s.pc)

/-- A step runs the instruction its word decodes to, between the fetch's advance and the timer tick
(R120 to R123). The outputs of the step before are cleared first, and the sample is used up at the end,
which is the model's holding of the step's outputs and inputs in the state (notes/assumptions/2.md, 4.md). -/
def Obligations.StepRunsDecodedInstruction : Prop :=
  (∀ (s : State) (w : Word) (i : Instr), s.fetch = .ok w → decodeWord w = .instr i → i.wellFormed = true →
    step s = onNext (exec i s.beginStep) State.endStep) ∧
  (∀ s : State, s.beginStep.pc = s.pc + 2 ∧ s.beginStep.warning = none ∧ s.beginStep.drawPulse = false ∧
    s.beginStep.soundPulse = false ∧
    ChangesOnly (fun it => it = .pc ∨ it = .warning ∨ it = .drawPulse ∨ it = .soundPulse) s s.beginStep) ∧
  (∀ u : State, u.endStep.inputs = u.inputs.tail ∧ u.endStep.inputIndex = u.inputIndex + 1 ∧
    ChangesOnly (fun it => it = .dt ∨ it = .st ∨ it = .soundRequested ∨ it = .soundPulse ∨
      it = .inputs ∨ it = .inputIndex) u u.endStep)

/-- The timer tick of every completed step sees the values the execute phase left (R124). -/
def Obligations.TickFollowsExecute : Prop :=
  ∀ (s u : State) (w : Word), s.fetch = .ok w → execDecoded (decodeWord w) s.beginStep = .next u →
    ∃ t, step s = .next t ∧
      t.dt = (if u.dt.toNat > 0 then u.dt - 1 else u.dt) ∧
      t.st = (if u.st.toNat > 0 then u.st - 1 else u.st) ∧
      (u.st.toNat > 0 → t.soundRequested = true ∧ t.soundPulse = true) ∧
      (u.st = 0 → t.soundRequested = u.soundRequested ∧ t.soundPulse = false)

/-- Each timer counts completed steps whatever instruction they run, but for the one instruction that
loads it (R124; spec/10_state.md R27, R28). -/
def Obligations.TimersCountSteps : Prop :=
  ∀ (s t : State) (w : Word), s.fetch = .ok w → step s = .next t →
    ((∀ x, decodeWord w ≠ .instr (.ldDtVx x)) → t.dt.toNat = s.dt.toNat - 1) ∧
    ((∀ x, decodeWord w ≠ .instr (.ldStVx x)) →
      t.st.toNat = s.st.toNat - 1 ∧ (t.soundPulse = true ↔ 0 < s.st.toNat))

/-- Steps are never refused, and they fault exactly under the conditions of the table of R254, with the
information the table gives. -/
def Obligations.StepFaultsExactly : Prop :=
  ∀ s : State, (∀ r, step s ≠ .refused r) ∧
    ∀ f, step s = .fault f ↔
      (4094 < s.pc.toNat ∧ f = .fetchRange s.pc) ∨
      ∃ w i, s.fetch = .ok w ∧ decodeWord w = .instr i ∧ raises i s f

/-- A store of registers over the next instruction is seen by the very next fetch
(spec/20_memory.md R71). -/
def Obligations.StoreIsSeenByNextFetch : Prop :=
  ∀ (s t : State) (x r q : Reg), exec (.stRegs x) s = .next t → q.val = r.val + 1 → q ≤ x →
    s.pc.toNat = s.addr r.val → t.fetch = .ok (wordOfBytes (s.getV r) (s.getV q))

/-- A jump to itself stops all change but the timers' countdown and the outputs (R127). -/
def Obligations.SelfJumpOnlyCountsDown : Prop :=
  ∀ s : State, s.fetch = .ok (wordA 0x1 s.pc) →
    ∃ t, step s = .next t ∧ t.pc = s.pc ∧ t.dt.toNat = s.dt.toNat - 1 ∧ t.st.toNat = s.st.toNat - 1 ∧
      t.soundRequested = (s.soundRequested || decide (0 < s.st.toNat)) ∧
      ChangesOnly (fun it => it = .dt ∨ it = .st ∨ it = .soundRequested ∨ it = .warning ∨ it = .drawPulse ∨
        it = .soundPulse ∨ it = .inputs ∨ it = .inputIndex) s t

/-! ### Control flow (spec/41_flow.md) -/

/-- `NOP` is the word 0x0000; it completes with no effect, and its step only advances `pc`, with no
warning, and ticks (R140). -/
def Obligations.NopHasNoEffect : Prop :=
  decodeWord 0x0000 = .instr .nop ∧
  (∀ s : State, ∃ t, exec .nop s = .next t ∧ ChangesOnly (fun _ => False) s t) ∧
  ∀ s : State, s.fetch = .ok 0x0000 →
    ∃ t, step s = .next t ∧ t.pc = s.pc + 2 ∧ t.warning = none ∧ t.dt.toNat = s.dt.toNat - 1 ∧
      t.st.toNat = s.st.toNat - 1

/-- `RET` pops into `pc`; with an empty stack it does nothing. The popped entry is not erased (R141). -/
def Obligations.ReturnPopsOrFallsThrough : Prop :=
  decodeWord 0x00EE = .instr .ret ∧
  ∀ s : State,
    (0 < s.sp.val → ∃ t, exec .ret s = .next t ∧ t.sp.val + 1 = s.sp.val ∧
      s.stack[t.sp.val]? = some t.pc ∧ ChangesOnly (fun it => it = .sp ∨ it = .pc) s t) ∧
    (s.sp.val = 0 → ∃ t, exec .ret s = .next t ∧ ChangesOnly (fun _ => False) s t)

/-- `JP nnn` sets `pc` to the zero-extended 12-bit address, with no check (R142). -/
def Obligations.JumpSetsPc : Prop :=
  ∀ (s : State) (nnn : Word),
    (nnn.toNat < 4096 → decodeWord (wordA 0x1 nnn) = .instr (.jp nnn)) ∧
    ∃ t, exec (.jp nnn) s = .next t ∧ t.pc = nnn ∧ ChangesOnly (fun it => it = .pc) s t

/-- `CALL nnn` pushes the address of the following instruction unless 32 entries are in use, and jumps in
either case (R143). -/
def Obligations.CallPushesUnlessFull : Prop :=
  ∀ (s : State) (nnn : Word),
    (nnn.toNat < 4096 → decodeWord (wordA 0x2 nnn) = .instr (.call nnn)) ∧
    (s.sp.val < 32 → ∃ t, exec (.call nnn) s = .next t ∧ t.pc = nnn ∧ t.sp.val = s.sp.val + 1 ∧
      t.stack[s.sp.val]? = some s.pc ∧
      ChangesOnly (fun it => it = .pc ∨ it = .sp ∨ ∃ k, k.val = s.sp.val ∧ it = .stackEntry k) s t) ∧
    (s.sp.val = 32 → ∃ t, exec (.call nnn) s = .next t ∧ t.pc = nnn ∧ ChangesOnly (fun it => it = .pc) s t)

/-- The four skips on registers: taken they move `pc`, which already is the address of the following
instruction, by 2 modulo 65536; not taken they change nothing (R144, R145, R146, R147). -/
def Obligations.SkipsCompareAndMovePc : Prop :=
  ∀ (s : State) (x y : Reg) (kk : Byte),
    (decodeWord (wordXK 0x3 x kk) = .instr (.seImm x kk) ∧
      ∃ t, exec (.seImm x kk) s = .next t ∧
        t.pc.toNat = (if (s.getV x).toNat = kk.toNat then (s.pc.toNat + 2) % 65536 else s.pc.toNat) ∧
        ChangesOnly (fun it => it = .pc) s t) ∧
    (decodeWord (wordXK 0x4 x kk) = .instr (.sneImm x kk) ∧
      ∃ t, exec (.sneImm x kk) s = .next t ∧
        t.pc.toNat = (if (s.getV x).toNat ≠ kk.toNat then (s.pc.toNat + 2) % 65536 else s.pc.toNat) ∧
        ChangesOnly (fun it => it = .pc) s t) ∧
    (decodeWord (wordXYN 0x5 x y 0) = .instr (.seReg x y) ∧
      ∃ t, exec (.seReg x y) s = .next t ∧
        t.pc.toNat = (if (s.getV x).toNat = (s.getV y).toNat then (s.pc.toNat + 2) % 65536 else s.pc.toNat) ∧
        ChangesOnly (fun it => it = .pc) s t) ∧
    (decodeWord (wordXYN 0x9 x y 0) = .instr (.sneReg x y) ∧
      ∃ t, exec (.sneReg x y) s = .next t ∧
        t.pc.toNat = (if (s.getV x).toNat ≠ (s.getV y).toNat then (s.pc.toNat + 2) % 65536 else s.pc.toNat) ∧
        ChangesOnly (fun it => it = .pc) s t)

/-- A `RET` at the depth a `CALL` left, the stack as it left it, goes to the instruction after the
`CALL`; after a `CALL` on a full stack it goes to the 32nd entry instead (R141, R143; the source's
testable properties X4 and X5 of spec/95_test_vectors.md). -/
def Obligations.CallThenReturn : Prop :=
  ∀ (s t u : State) (nnn : Word), exec (.call nnn) s = .next t → u.sp = t.sp → u.stack = t.stack →
    ∃ r, exec .ret u = .next r ∧
      (s.sp.val < 32 → r.pc = s.pc ∧ r.sp = s.sp) ∧
      (s.sp.val = 32 → s.stack[31]? = some r.pc ∧ r.sp.val = 31)

/-! ### Registers and arithmetic (spec/42_alu.md) -/

/-- The two loads of a register (R160, R162). -/
def Obligations.RegisterLoads : Prop :=
  ∀ (s : State) (x y : Reg) (kk : Byte),
    (decodeWord (wordXK 0x6 x kk) = .instr (.ldImm x kk) ∧
      ∃ t, exec (.ldImm x kk) s = .next t ∧ t.getV x = kk ∧ ChangesOnly (fun it => it = .v x) s t) ∧
    (decodeWord (wordXYN 0x8 x y 0x0) = .instr (.ldReg x y) ∧
      ∃ t, exec (.ldReg x y) s = .next t ∧ t.getV x = s.getV y ∧ ChangesOnly (fun it => it = .v x) s t)

/-- `ADD Vx, kk` wraps modulo 256 and writes no flag: `V15` changes only as the destination (R161). -/
def Obligations.AddImmediateWraps : Prop :=
  ∀ (s : State) (x : Reg) (kk : Byte),
    decodeWord (wordXK 0x7 x kk) = .instr (.addImm x kk) ∧
    ∃ t, exec (.addImm x kk) s = .next t ∧
      (t.getV x).toNat = ((s.getV x).toNat + kk.toNat) % 256 ∧ ChangesOnly (fun it => it = .v x) s t

/-- The bitwise operations, bit by bit; `V15` is not written or cleared unless it is the destination
(R163, R164, R165). -/
def Obligations.BitwiseOperations : Prop :=
  ∀ (s : State) (x y : Reg),
    (decodeWord (wordXYN 0x8 x y 0x1) = .instr (.orReg x y) ∧
      ∃ t, exec (.orReg x y) s = .next t ∧
        (∀ k, (t.getV x).getLsbD k = ((s.getV x).getLsbD k || (s.getV y).getLsbD k)) ∧
        ChangesOnly (fun it => it = .v x) s t) ∧
    (decodeWord (wordXYN 0x8 x y 0x2) = .instr (.andReg x y) ∧
      ∃ t, exec (.andReg x y) s = .next t ∧
        (∀ k, (t.getV x).getLsbD k = ((s.getV x).getLsbD k && (s.getV y).getLsbD k)) ∧
        ChangesOnly (fun it => it = .v x) s t) ∧
    (decodeWord (wordXYN 0x8 x y 0x3) = .instr (.xorReg x y) ∧
      ∃ t, exec (.xorReg x y) s = .next t ∧
        (∀ k, (t.getV x).getLsbD k = ((s.getV x).getLsbD k != (s.getV y).getLsbD k)) ∧
        ChangesOnly (fun it => it = .v x) s t)

/-- `ADD Vx, Vy`: the sum modulo 256 in `Vx`, the carry in `V15` unless `x = 15`, both from the values
before the instruction whatever `x` and `y` are (R166). -/
def Obligations.AddRegistersSetsCarry : Prop :=
  ∀ (s : State) (x y : Reg),
    let sum := (s.getV x).toNat + (s.getV y).toNat
    decodeWord (wordXYN 0x8 x y 0x4) = .instr (.addReg x y) ∧
    ∃ t, exec (.addReg x y) s = .next t ∧ (t.getV x).toNat = sum % 256 ∧
      (x ≠ flagReg → t.getV flagReg = if sum > 255 then 1 else 0) ∧
      ChangesOnly (fun it => it = .v x ∨ it = .v flagReg) s t

/-- `SUB Vx, Vy`: the flag is strictly greater, and it is written first, so an operand that is `V15` is
the flag. The cases are those R167 spells out. -/
def Obligations.SubtractWritesFlagFirst : Prop :=
  ∀ (s : State) (x y : Reg),
    let a := (s.getV x).toNat
    let b := (s.getV y).toNat
    let f := if a > b then 1 else 0
    decodeWord (wordXYN 0x8 x y 0x5) = .instr (.subReg x y) ∧
    ∃ t, exec (.subReg x y) s = .next t ∧
      (x ≠ flagReg → y ≠ flagReg → (t.getV x).toNat = (a + 256 - b) % 256 ∧ (t.getV flagReg).toNat = f) ∧
      (x ≠ flagReg → y = flagReg → (t.getV x).toNat = (a + 256 - f) % 256 ∧ (t.getV flagReg).toNat = f) ∧
      (x = flagReg → y ≠ flagReg → (t.getV flagReg).toNat = (f + 256 - b) % 256) ∧
      (x = flagReg → y = flagReg → t.getV flagReg = 0) ∧
      ChangesOnly (fun it => it = .v x ∨ it = .v flagReg) s t

/-- `SUBN Vx, Vy`, as `SUB` with the operands exchanged. The cases are those R169 spells out. -/
def Obligations.SubtractReversedWritesFlagFirst : Prop :=
  ∀ (s : State) (x y : Reg),
    let a := (s.getV x).toNat
    let b := (s.getV y).toNat
    let f := if b > a then 1 else 0
    decodeWord (wordXYN 0x8 x y 0x7) = .instr (.subn x y) ∧
    ∃ t, exec (.subn x y) s = .next t ∧
      (x ≠ flagReg → y ≠ flagReg → (t.getV x).toNat = (b + 256 - a) % 256 ∧ (t.getV flagReg).toNat = f) ∧
      (x ≠ flagReg → y = flagReg → (t.getV x).toNat = (f + 256 - a) % 256 ∧ (t.getV flagReg).toNat = f) ∧
      (x = flagReg → y ≠ flagReg → (t.getV flagReg).toNat = (b + 256 - f) % 256) ∧
      (x = flagReg → y = flagReg → t.getV flagReg = 0) ∧
      ChangesOnly (fun it => it = .v x ∨ it = .v flagReg) s t

/-- The two shifts of `Vx` by one, whatever `y` is: the bit shifted out in `V15`, and with `x = 15` what
the sequential reading leaves there (R168, R170). -/
def Obligations.ShiftsDropBitIntoFlag : Prop :=
  ∀ (s : State) (x y : Reg),
    let a := (s.getV x).toNat
    (decodeWord (wordXYN 0x8 x y 0x6) = .instr (.shr x y) ∧
      ∃ t, exec (.shr x y) s = .next t ∧
        (x ≠ flagReg → (t.getV x).toNat = a / 2 ∧ (t.getV flagReg).toNat = a % 2) ∧
        (x = flagReg → t.getV flagReg = 0) ∧
        ChangesOnly (fun it => it = .v x ∨ it = .v flagReg) s t) ∧
    (decodeWord (wordXYN 0x8 x y 0xE) = .instr (.shl x y) ∧
      ∃ t, exec (.shl x y) s = .next t ∧
        (x ≠ flagReg → (t.getV x).toNat = a * 2 % 256 ∧ (t.getV flagReg).toNat = a / 128) ∧
        (x = flagReg → t.getV flagReg = if 128 ≤ a then 2 else 0) ∧
        ChangesOnly (fun it => it = .v x ∨ it = .v flagReg) s t)

/-- `RND Vx, kk`: the random byte of the step, masked by `kk`. Whatever the byte is, the result has no
bit outside `kk`; with `kk` 0 it is 0, and with `kk` 0xFF it is the byte (R171). -/
def Obligations.RandomByteIsMasked : Prop :=
  ∀ (s : State) (x : Reg) (kk : Byte),
    decodeWord (wordXK 0xC x kk) = .instr (.rnd x kk) ∧
    ∃ t, exec (.rnd x kk) s = .next t ∧ t.getV x = s.rnd &&& kk ∧
      (∀ k, kk.getLsbD k = false → (t.getV x).getLsbD k = false) ∧
      (kk = 0 → t.getV x = 0) ∧ (kk = 0xFF → t.getV x = s.rnd) ∧
      ChangesOnly (fun it => it = .v x) s t

/-! ### The index register and memory (spec/43_index_memory.md) -/

/-- The three instructions that set `I`: the 12-bit address, the sum modulo 65536 with no flag, and
five times the whole byte, which for the digit A after reset is the address of the glyph A under every
font the spec admits (R190, R191, R192). -/
def Obligations.IndexRegisterWrites : Prop :=
  (∀ (p : Params) (x : Reg), p.wf → ∃ t, exec (.ldF x) ((State.resetWith p).setV x 0xA) = .next t ∧
    t.i.toNat = 50 ∧ (List.range 5).map (fun k => t.byteAt (t.addr k)) = [0xF0, 0x90, 0xF0, 0x90, 0x90]) ∧
  ∀ (s : State) (x : Reg) (nnn : Word),
    ((nnn.toNat < 4096 → decodeWord (wordA 0xA nnn) = .instr (.ldI nnn)) ∧
      ∃ t, exec (.ldI nnn) s = .next t ∧ t.i = nnn ∧ ChangesOnly (fun it => it = .i) s t) ∧
    (decodeWord (wordX 0xF x 0x1E) = .instr (.addI x) ∧
      ∃ t, exec (.addI x) s = .next t ∧ t.i.toNat = (s.i.toNat + (s.getV x).toNat) % 65536 ∧
        ChangesOnly (fun it => it = .i) s t) ∧
    (decodeWord (wordX 0xF x 0x29) = .instr (.ldF x) ∧
      ∃ t, exec (.ldF x) s = .next t ∧ t.i.toNat = (s.getV x).toNat * 5 ∧
        ChangesOnly (fun it => it = .i) s t)

/-- `LD B, Vx` stores the hundreds, tens and ones of `Vx` at `I`, `I + 1`, `I + 2`, and nothing else
changes; when the last address is above 4095 it faults at the first address outside (R193). -/
def Obligations.DecimalDigitsStored : Prop :=
  ∀ (s : State) (x : Reg),
    decodeWord (wordX 0xF x 0x33) = .instr (.ldB x) ∧
    (s.addr 2 ≤ 4095 → ∃ t, exec (.ldB x) s = .next t ∧
      (t.byteAt (s.addr 0)).toNat = (s.getV x).toNat / 100 ∧
      (t.byteAt (s.addr 1)).toNat = (s.getV x).toNat / 10 % 10 ∧
      (t.byteAt (s.addr 2)).toNat = (s.getV x).toNat % 10 ∧
      ChangesOnly (fun it => it = .byte (s.addr 0) ∨ it = .byte (s.addr 1) ∨ it = .byte (s.addr 2)) s t) ∧
    (4095 < s.addr 2 → exec (.ldB x) s = .fault (.dataRange (max (s.addr 0) 4096)))

/-- `LD [I], Vx` stores `V0..Vx` at ascending addresses from `I` on; `I` and the registers stay; when
the last address is above 4095 it faults at the first address outside (R194). -/
def Obligations.RegistersStored : Prop :=
  ∀ (s : State) (x : Reg),
    decodeWord (wordX 0xF x 0x55) = .instr (.stRegs x) ∧
    (s.addr x.val ≤ 4095 → ∃ t, exec (.stRegs x) s = .next t ∧
      (∀ r, r ≤ x → t.byteAt (s.addr r.val) = s.getV r) ∧
      ChangesOnly (fun it => ∃ r, r ≤ x ∧ it = .byte (s.addr r.val)) s t) ∧
    (4095 < s.addr x.val → exec (.stRegs x) s = .fault (.dataRange (max (s.addr 0) 4096)))

/-- `LD Vx, [I]` loads `V0..Vx` from ascending addresses from `I` on; `I`, memory and the registers
above `x` stay; when the last address is above 4095 it faults at the first address outside (R195). -/
def Obligations.RegistersLoaded : Prop :=
  ∀ (s : State) (x : Reg),
    decodeWord (wordX 0xF x 0x65) = .instr (.ldRegs x) ∧
    (s.addr x.val ≤ 4095 → ∃ t, exec (.ldRegs x) s = .next t ∧
      (∀ r, r ≤ x → t.getV r = s.byteAt (s.addr r.val)) ∧
      ChangesOnly (fun it => ∃ r, r ≤ x ∧ it = .v r) s t) ∧
    (4095 < s.addr x.val → exec (.ldRegs x) s = .fault (.dataRange (max (s.addr 0) 4096)))

/-- Registers stored and loaded again at the same `I` come back, whatever happened to the registers in
between (R194, R195). -/
def Obligations.StoreThenLoadRestoresRegisters : Prop :=
  ∀ (s t u : State) (x : Reg), exec (.stRegs x) s = .next t →
    u.i = t.i → (∀ a, u.byteAt a = t.byteAt a) →
    ∃ r, exec (.ldRegs x) u = .next r ∧ ∀ q, q ≤ x → r.getV q = s.getV q

/-! ### The display (spec/44_display.md) -/

/-- `CLS` clears every cell and sets `draw_requested`; `V15` is not written (R210). -/
def Obligations.ClearScreen : Prop :=
  decodeWord 0x00E0 = .instr .cls ∧
  ∀ s : State, ∃ t, exec .cls s = .next t ∧ (∀ p, t.getFb p = 0) ∧ t.drawRequested = true ∧
    t.drawPulse = true ∧
    ChangesOnly (fun it => (∃ p, it = .cell p) ∨ it = .drawRequested ∨ it = .drawPulse) s t

/-- `DRW` completes whenever its rows lie inside the memory, for every `x`, `y` and `n`: `draw_requested`
is set, the flag is 0 or 1, and nothing but the flag, cells and the draw outputs changes; else it faults
at the first row outside (R211). -/
def Obligations.DrawCompletesOrFaults : Prop :=
  ∀ (s : State) (x y : Reg) (n : Fin 16),
    decodeWord (wordXYN 0xD x y n) = .instr (.drw x y n) ∧
    (n.val = 0 ∨ s.addr (n.val - 1) ≤ 4095 → ∃ t, exec (.drw x y n) s = .next t ∧
      t.drawRequested = true ∧ t.drawPulse = true ∧ (t.getV flagReg = 0 ∨ t.getV flagReg = 1) ∧
      (n.val = 0 → t.getV flagReg = 0 ∧ ∀ p, t.getFb p = s.getFb p) ∧
      ChangesOnly (fun it => it = .v flagReg ∨ (∃ p, it = .cell p) ∨ it = .drawRequested ∨
        it = .drawPulse) s t) ∧
    (0 < n.val → 4095 < s.addr (n.val - 1) → exec (.drw x y n) s = .fault (.dataRange (max (s.addr 0) 4096)))

/-- The collision detector: with `x` and `y` not 15, `V15` is 1 exactly when a visible target cell of a
set sprite bit was lit before; every such cell is complemented and all others keep their value (R215,
which the spec derives from R211). -/
def Obligations.CollisionDetector : Prop :=
  ∀ (s : State) (x y : Reg) (n : Fin 16), x ≠ flagReg → y ≠ flagReg →
    (n.val = 0 ∨ s.addr (n.val - 1) ≤ 4095) →
    let covers := s.spriteCovers (s.getV x).toNat (s.getV y).toNat n.val
    ∃ t, exec (.drw x y n) s = .next t ∧
      (t.getV flagReg = 1 ↔ ∃ p, covers p ∧ s.getFb p = 1) ∧
      (t.getV flagReg = 0 ↔ ¬ ∃ p, covers p ∧ s.getFb p = 1) ∧
      (∀ p, covers p → t.getFb p = s.getFb p ^^^ 1) ∧
      (∀ p, ¬ covers p → t.getFb p = s.getFb p)

/-- With `x` and `y` not 15, drawing the identical sprite twice at the same place restores the
framebuffer. On a dark framebuffer the first draw reports no collision, and the second reports one
exactly when the sprite has a visible set bit (R211 (h); the source's testable property X7 of
spec/95_test_vectors.md). -/
def Obligations.DrawTwiceRestores : Prop :=
  ∀ (s t : State) (x y : Reg) (n : Fin 16), x ≠ flagReg → y ≠ flagReg →
    exec (.drw x y n) s = .next t →
    ∃ u, exec (.drw x y n) t = .next u ∧ (∀ p, u.getFb p = s.getFb p) ∧
      ((∀ p, s.getFb p = 0) →
        (t.getV flagReg = 0 ∧
          (u.getV flagReg = 1 ↔ ∃ p, s.spriteCovers (s.getV x).toNat (s.getV y).toNat n.val p)))

/-- The position registers are read after the flag was cleared: with no collision, a draw whose `x` or
`y` is 15 uses the origin 0 for it, for every choice of `x` and `y` (R211 (g)). -/
def Obligations.DrawWithFlagAsPosition : Prop :=
  ∀ (s : State) (x y : Reg) (n : Fin 16), (n.val = 0 ∨ s.addr (n.val - 1) ≤ 4095) →
    let covers := s.spriteCovers (s.origin 0 x) (s.origin 0 y) n.val
    (∀ p, covers p → s.getFb p = 0) →
    ∃ t, exec (.drw x y n) s = .next t ∧ t.getV flagReg = 0 ∧
      (∀ p, covers p → t.getFb p = 1) ∧ (∀ p, ¬ covers p → t.getFb p = s.getFb p)

/-- One row drawn at `x = 15` whose first set bit hits a lit cell: that bit goes to column origin 0, and
every later set bit to column origin 1, the flag now being 1 (R211 (g)). -/
def Obligations.DrawAfterCollisionUsesNewFlag : Prop :=
  ∀ (s : State) (y : Reg) (c : Nat) (p : Fin Config.fbCells), y ≠ flagReg → s.addr 0 ≤ 4095 → c < 8 →
    spriteBit (s.byteAt (s.addr 0)) c = true →
    (∀ d, d < c → spriteBit (s.byteAt (s.addr 0)) d = false) →
    edgeCell s.params.drawEdge c (s.getV y).toNat = some p → s.getFb p = 1 →
    ∃ t, exec (.drw flagReg y 1) s = .next t ∧ t.getV flagReg = 1 ∧ t.getFb p = 0 ∧
      ∀ q, q ≠ p → t.getFb q =
        if (List.range 8).any (fun d => decide (c < d) && spriteBit (s.byteAt (s.addr 0)) d &&
            edgeCell s.params.drawEdge (1 + d) (s.getV y).toNat == some q)
        then s.getFb q ^^^ 1 else s.getFb q

/-- A draw with a collision, for every `x`, `y` and number of rows. The first collision, in the order of
rows and then columns, is at row `r` and column `c`: up to that bit a position register that is `V15`
reads 0, and for every later bit it reads 1 (R211 (g)). The targets of the bits up to the first collision
and of the later bits are complemented, all other cells keep their value, and `V15` ends as 1. -/
def Obligations.DrawAfterFirstCollision : Prop :=
  ∀ (s : State) (x y : Reg) (n : Fin 16) (r c : Nat) (q : Fin Config.fbCells), s.addr (n.val - 1) ≤ 4095 →
    let bitOn := fun flag => s.spriteBitOn (s.origin flag x) (s.origin flag y) n.val
    bitOn 0 r c q → s.getFb q = 1 →
    (∀ row col p, row * 8 + col < r * 8 + c → bitOn 0 row col p → s.getFb p = 0) →
    let target := fun p => ∃ row col, (row * 8 + col ≤ r * 8 + c ∧ bitOn 0 row col p) ∨
      (r * 8 + c < row * 8 + col ∧ bitOn 1 row col p)
    ∃ t, exec (.drw x y n) s = .next t ∧ t.getV flagReg = 1 ∧
      (∀ p, target p → t.getFb p = s.getFb p ^^^ 1) ∧ (∀ p, ¬ target p → t.getFb p = s.getFb p)

/-- One set bit, for every `x` and `y`: its cell is found from the position registers as they stand; a
lit cell sets `V15` and goes dark, a dark one lights up and leaves `V15`; a bit off the grid does
nothing (R211, the inner loop). -/
def Obligations.SpriteBitTogglesCell : Prop :=
  ∀ (s : State) (x y : Reg) (row col : Nat),
    (∀ p, edgeCell s.params.drawEdge ((s.getV x).toNat + col) ((s.getV y).toNat + row) = some p →
      (s.getFb p = 1 → (s.drawBit x y row col).getV flagReg = 1 ∧ (s.drawBit x y row col).getFb p = 0) ∧
      (s.getFb p = 0 → (s.drawBit x y row col).getV flagReg = s.getV flagReg ∧
        (s.drawBit x y row col).getFb p = 1) ∧
      ChangesOnly (fun it => it = .v flagReg ∨ it = .cell p) s (s.drawBit x y row col)) ∧
    (edgeCell s.params.drawEdge ((s.getV x).toNat + col) ((s.getV y).toNat + row) = none →
      ChangesOnly (fun _ => False) s (s.drawBit x y row col))

/-- Edge mode `wrap`: every pixel is visible, at the coordinates modulo 64 and 32, in the cell
`py * 64 + px` (R212, R214). -/
def Obligations.WrapModeTakesCoordinatesModuloGrid : Prop :=
  ∀ cx cy : Nat, ∃ p, edgeCell .wrap cx cy = some p ∧ p.val = cy % 32 * 64 + cx % 64

/-- Edge mode `clip`: a pixel is visible exactly on the grid, where it is drawn in its own cell; with the
start off the grid the whole sprite is dropped and `V15` ends as 0, though its rows are still read, so a
row outside the memory still faults (R213). -/
def Obligations.ClipModeDropsPixelsOffGrid : Prop :=
  (∀ cx cy : Nat,
    (cx ≤ 63 ∧ cy ≤ 31 → ∃ p, edgeCell .clip cx cy = some p ∧ p.val = cy * 64 + cx) ∧
    (¬ (cx ≤ 63 ∧ cy ≤ 31) → edgeCell .clip cx cy = none)) ∧
  ∀ (s : State) (x y : Reg) (n : Fin 16), x ≠ flagReg → y ≠ flagReg → s.params.drawEdge = .clip →
    (64 ≤ (s.getV x).toNat ∨ 32 ≤ (s.getV y).toNat) →
    ((n.val = 0 ∨ s.addr (n.val - 1) ≤ 4095) →
      ∃ t, exec (.drw x y n) s = .next t ∧ t.getV flagReg = 0 ∧ ∀ p, t.getFb p = s.getFb p) ∧
    (0 < n.val → 4095 < s.addr (n.val - 1) → exec (.drw x y n) s = .fault (.dataRange (max (s.addr 0) 4096)))

/-! ### Keys and timers (spec/45_keys_timers.md) -/

/-- The key tests: the register's value selects the key; above 15 the fault `F_KEY_RANGE` (R230, R231). -/
def Obligations.KeyTestsSkipOrFault : Prop :=
  ∀ (s : State) (x : Reg),
    decodeWord (wordX 0xE x 0x9E) = .instr (.skp x) ∧ decodeWord (wordX 0xE x 0xA1) = .instr (.sknp x) ∧
    ((s.getV x).toNat ≤ 15 →
      (∃ t, exec (.skp x) s = .next t ∧
        t.pc = (if s.keys.getLsbD (s.getV x).toNat = true then s.pc + 2 else s.pc) ∧
        ChangesOnly (fun it => it = .pc) s t) ∧
      (∃ t, exec (.sknp x) s = .next t ∧
        t.pc = (if s.keys.getLsbD (s.getV x).toNat = false then s.pc + 2 else s.pc) ∧
        ChangesOnly (fun it => it = .pc) s t)) ∧
    (15 < (s.getV x).toNat →
      exec (.skp x) s = .fault (.keyRange (s.getV x)) ∧ exec (.sknp x) s = .fault (.keyRange (s.getV x)))

/-- The key wait: with a key pressed, the highest pressed key's number, in both modes; with none, the
next instruction in mode `nonblocking_last`, and `pc` back by 2 in mode `blocking_retry`, so that a step
there leaves `pc` on the instruction while its timers tick (R232). -/
def Obligations.KeyWaitTakesHighestOrGoesOn : Prop :=
  (∀ x : Reg, decodeWord (wordX 0xF x 0x0A) = .instr (.ldVxK x)) ∧
  (∀ (s : State) (x : Reg) (k : Nat), k < 16 → s.keys.getLsbD k = true →
    (∀ j, k < j → j < 16 → s.keys.getLsbD j = false) →
    ∃ t, exec (.ldVxK x) s = .next t ∧ (t.getV x).toNat = k ∧ ChangesOnly (fun it => it = .v x) s t) ∧
  (∀ (s : State) (x : Reg), (∀ k, k < 16 → s.keys.getLsbD k = false) →
    (s.params.keyWait = .nonblockingLast →
      ∃ t, exec (.ldVxK x) s = .next t ∧ ChangesOnly (fun _ => False) s t) ∧
    (s.params.keyWait = .blockingRetry →
      ∃ t, exec (.ldVxK x) s = .next t ∧ t.pc = s.pc - 2 ∧ ChangesOnly (fun it => it = .pc) s t)) ∧
  (∀ (s : State) (x : Reg), s.fetch = .ok (wordX 0xF x 0x0A) → s.params.keyWait = .blockingRetry →
    (∀ k, k < 16 → s.keys.getLsbD k = false) →
    ∃ t, step s = .next t ∧ t.pc = s.pc ∧ (∀ r, t.getV r = s.getV r) ∧
      t.dt.toNat = s.dt.toNat - 1 ∧ t.st.toNat = s.st.toNat - 1)

/-- The timer accesses, and what the tick of the same step makes of them: `Fx07` reads `DT` before the
tick; a loaded timer has ticked once when the step ends (R233, R234; of R235 the write and the tick). -/
def Obligations.TimerAccesses : Prop :=
  ∀ (s : State) (x : Reg),
    (decodeWord (wordX 0xF x 0x07) = .instr (.ldVxDt x) ∧
      (∃ t, exec (.ldVxDt x) s = .next t ∧ t.getV x = s.dt ∧ ChangesOnly (fun it => it = .v x) s t) ∧
      (s.fetch = .ok (wordX 0xF x 0x07) →
        ∃ t, step s = .next t ∧ t.getV x = s.dt ∧ t.dt.toNat = s.dt.toNat - 1)) ∧
    (decodeWord (wordX 0xF x 0x15) = .instr (.ldDtVx x) ∧
      (∃ t, exec (.ldDtVx x) s = .next t ∧ t.dt = s.getV x ∧ ChangesOnly (fun it => it = .dt) s t) ∧
      (s.fetch = .ok (wordX 0xF x 0x15) →
        ∃ t, step s = .next t ∧ t.dt.toNat = (s.getV x).toNat - 1)) ∧
    (decodeWord (wordX 0xF x 0x18) = .instr (.ldStVx x) ∧
      (∃ t, exec (.ldStVx x) s = .next t ∧ t.st = s.getV x ∧ ChangesOnly (fun it => it = .st) s t) ∧
      (s.fetch = .ok (wordX 0xF x 0x18) →
        ∃ t, step s = .next t ∧ t.st.toNat = (s.getV x).toNat - 1 ∧
          t.soundRequested = (s.soundRequested || decide (0 < (s.getV x).toNat)) ∧
          t.soundPulse = decide (0 < (s.getV x).toNat)))

/-! ### The whole machine -/

/-- Who writes what, and where: the execute phase of an instruction changes only the items that R20
(column "written by"), R21 and R22 give it, at the places its operands and the state give: `Fx33` the
bytes at `I`, `I + 1`, `I + 2`, `Fx55` those at `I` to `I + x`, `2nnn` the stack entry at `sp`, `Dxyn` the
cells its set bits fall on while the flag register is 0 or 1, `00E0` every cell. No other instruction
writes memory, a stack entry or a cell, and none writes `sound_requested`, an input or a parameter. -/
def Obligations.InstructionsWriteOnlyTheirItems : Prop :=
  ∀ (i : Instr) (s t : State), exec i s = .next t → ChangesOnly (mayWrite s i) s t

/-- The output flags: `draw_pulse` is 1 exactly on a step that executed `00E0` or `Dxyn`, the warning is
there exactly on a step whose word was unrecognised, and each flag is set by its pulse and never cleared
by a step (spec/10_state.md R33, R34, R35). -/
def Obligations.OutputFlagsFollowPulses : Prop :=
  ∀ (s t : State) (w : Word), s.fetch = .ok w → step s = .next t →
    (t.drawPulse = true ↔ decodeWord w = .instr .cls ∨ ∃ x y n, decodeWord w = .instr (.drw x y n)) ∧
    (t.warning = if decodeWord w = .unrecognised w then some w else none) ∧
    t.drawRequested = (s.drawRequested || t.drawPulse) ∧
    t.soundRequested = (s.soundRequested || t.soundPulse)

/-- Inputs reach only the instructions that read them: an instruction other than `Cxkk`, `Ex9E`, `ExA1`
and `Fx0A` has the same outcome whatever the inputs are, and one other than `Cxkk` whatever the random
byte is (spec/10_state.md R31, R32). -/
def Obligations.InputsReachOnlyTheirReaders : Prop :=
  (∀ (i : Instr) (s : State) (l : List StepInput) (k : Nat),
    (∀ x kk, i ≠ .rnd x kk) → (∀ x, i ≠ .skp x) → (∀ x, i ≠ .sknp x) → (∀ x, i ≠ .ldVxK x) →
    exec i { s with inputs := l, inputIndex := k } =
      onNext (exec i s) (fun t => { t with inputs := l, inputIndex := k })) ∧
  (∀ (i : Instr) (s : State) (keys : BitVec 16) (r q : Byte) (l : List StepInput),
    (∀ x kk, i ≠ .rnd x kk) →
    exec i { s with inputs := ⟨keys, q⟩ :: l } =
      onNext (exec i { s with inputs := ⟨keys, r⟩ :: l }) (fun t => { t with inputs := ⟨keys, q⟩ :: l }))

/-- The sound timer and the outputs are unobservable by a program: two states that differ only in them
step to states that differ only in them, for ever (spec/10_state.md R28, R38; spec/60_exceptions.md R262). -/
def Obligations.SoundAndOutputsAreUnobservable : Prop :=
  ∀ (s t : State) (st : Byte) (dr sr dp sp : Bool) (w : Option Word), step s = .next t →
    ∃ st' dr' sr' sp', step { s with st := st, drawRequested := dr, soundRequested := sr,
                                     drawPulse := dp, soundPulse := sp, warning := w } =
      .next { t with st := st', drawRequested := dr', soundRequested := sr', soundPulse := sp' }

/-- Every step keeps the invariant: memory in canonical form, stack entries at most 4096, `pc` at most
4098, the font's fixed bytes (spec/20_memory.md R60, R66, R77; spec/41_flow.md R141, R148). -/
def Obligations.StepKeepsInvariant : Prop :=
  ∀ s t : State, s.Inv → step s = .next t → t.Inv

/-- The invariant holds after reset, under every choice of the parameters the spec admits and under the
defaults. -/
def Obligations.ResetMeetsInvariant : Prop :=
  State.reset.Inv ∧ ∀ p : Params, p.wf → (State.resetWith p).Inv

/-- The moves of the host between steps keep the invariant (spec/70_reset_and_hazards.md R285). -/
def Obligations.HostMovesKeepInvariant : Prop :=
  ∀ (s : State) (a : HostAction), s.Inv → (s.hostMove a).Inv

/-- Every state of a run has the invariant, and the parameters the run was reset with never change in a
step (spec/70_reset_and_hazards.md R282, R285; spec/00_scope.md R7). -/
def Obligations.ReachableStatesMeetInvariant : Prop :=
  (∀ s : State, Reachable s → s.Inv) ∧ (∀ s t : State, step s = .next t → t.params = s.params)

/-! ### Reset and the host (spec/10_state.md R40, spec/70_reset_and_hazards.md) -/

/-- The reset values of R40, for every font; and a reset between steps gives the same values and leaves
the inputs, which are not state, as they are. -/
def Obligations.ResetValues : Prop :=
  (∀ u : State, u.hostReset.inputs = u.inputs ∧ u.hostReset.inputIndex = u.inputIndex ∧
    ChangesOnly (fun it => it = .inputs ∨ it = .inputIndex) (State.resetWith u.params) u.hostReset) ∧
  ∀ p : Params, let s := State.resetWith p
    (∀ r, s.getV r = 0) ∧ s.i = 0 ∧ s.pc = 0x200 ∧ s.sp.val = 0 ∧
    (∀ k : Fin Config.stackDepth, s.stack[k] = 0) ∧
    s.dt = 0 ∧ s.st = 0 ∧ (∀ a, a < 80 → p.font[a]? = some (s.byteAt a)) ∧
    (∀ a, 80 ≤ a → a < 4096 → s.byteAt a = 0) ∧ (∀ q, s.getFb q = 0) ∧
    s.drawRequested = false ∧ s.soundRequested = false

/-- Reset is total and repeatable: two in a row leave the same state as one, and nothing of the old run
survives it but the inputs and the parameters, so the loaded program is gone too (R41). -/
def Obligations.ResetIsTotalAndIdempotent : Prop :=
  (∀ s : State, s.hostReset.hostReset = s.hostReset) ∧
  (∀ s t : State, s.params = t.params → s.inputs = t.inputs → s.inputIndex = t.inputIndex →
    s.hostReset = t.hostReset) ∧
  (∀ (s : State) (a : Nat), 0x200 ≤ a → s.hostReset.byteAt a = 0)

/-- `load` copies at most 3584 bytes to 0x200 on, drops the rest, changes nothing else, and answers how
many it copied (R281). -/
def Obligations.LoadCopiesTruncated : Prop :=
  ∀ (s : State) (bytes : List Byte),
    (s.load bytes).2 = min bytes.length 3584 ∧
    (∀ k, k < min bytes.length 3584 → bytes[k]? = some ((s.load bytes).1.byteAt (0x200 + k))) ∧
    ChangesOnly (fun it => ∃ k, k < min bytes.length 3584 ∧ it = .byte (0x200 + k)) s (s.load bytes).1

/-- The host's acknowledges clear their flag and nothing else, and a sample it supplies to a machine with
none pending is what the next step reads (spec/10_state.md R31 to R34, R36). That samples wait in the
state until their step is the model's (notes/assumptions/2.md). -/
def Obligations.HostAcknowledgesAndInputs : Prop :=
  ∀ (s : State) (inp : StepInput),
    (s.drawAck.drawRequested = false ∧ ChangesOnly (fun it => it = .drawRequested) s s.drawAck) ∧
    (s.soundAck.soundRequested = false ∧ ChangesOnly (fun it => it = .soundRequested) s s.soundAck) ∧
    ChangesOnly (fun it => it = .inputs) s (s.supply inp) ∧
    (s.inputs = [] → (s.supply inp).keys = inp.keys ∧ (s.supply inp).rnd = inp.rnd)
end

