-- ==== Sys2Proof/Laws/State.lean ====
section
/-! SUPPORT. One lemma per field of the state and per named update of it. -/

namespace Sys2Proof.Machine

@[simp] theorem State.setV_v (s : State) (x : Reg) (b : RegVal) : (s.setV x b).v = s.v.set x b := rfl
@[simp] theorem State.setV_i (s : State) (x : Reg) (b : RegVal) : (s.setV x b).i = s.i := rfl
@[simp] theorem State.setV_pc (s : State) (x : Reg) (b : RegVal) : (s.setV x b).pc = s.pc := rfl
@[simp] theorem State.setV_sp (s : State) (x : Reg) (b : RegVal) : (s.setV x b).sp = s.sp := rfl
@[simp] theorem State.setV_stack (s : State) (x : Reg) (b : RegVal) : (s.setV x b).stack = s.stack := rfl
@[simp] theorem State.setV_dt (s : State) (x : Reg) (b : RegVal) : (s.setV x b).dt = s.dt := rfl
@[simp] theorem State.setV_st (s : State) (x : Reg) (b : RegVal) : (s.setV x b).st = s.st := rfl
@[simp] theorem State.setV_mem (s : State) (x : Reg) (b : RegVal) : (s.setV x b).mem = s.mem := rfl
@[simp] theorem State.setV_fb (s : State) (x : Reg) (b : RegVal) : (s.setV x b).fb = s.fb := rfl
@[simp] theorem State.setV_drawRequested (s : State) (x : Reg) (b : RegVal) : (s.setV x b).drawRequested = s.drawRequested := rfl
@[simp] theorem State.setV_soundRequested (s : State) (x : Reg) (b : RegVal) : (s.setV x b).soundRequested = s.soundRequested := rfl
@[simp] theorem State.setV_warning (s : State) (x : Reg) (b : RegVal) : (s.setV x b).warning = s.warning := rfl
@[simp] theorem State.setV_drawPulse (s : State) (x : Reg) (b : RegVal) : (s.setV x b).drawPulse = s.drawPulse := rfl
@[simp] theorem State.setV_soundPulse (s : State) (x : Reg) (b : RegVal) : (s.setV x b).soundPulse = s.soundPulse := rfl
@[simp] theorem State.setV_inputs (s : State) (x : Reg) (b : RegVal) : (s.setV x b).inputs = s.inputs := rfl
@[simp] theorem State.setV_inputIndex (s : State) (x : Reg) (b : RegVal) : (s.setV x b).inputIndex = s.inputIndex := rfl
@[simp] theorem State.setV_params (s : State) (x : Reg) (b : RegVal) : (s.setV x b).params = s.params := rfl

@[simp] theorem State.setI_v (s : State) (w : IndexVal) : (s.setI w).v = s.v := rfl
@[simp] theorem State.setI_i (s : State) (w : IndexVal) : (s.setI w).i = w := rfl
@[simp] theorem State.setI_pc (s : State) (w : IndexVal) : (s.setI w).pc = s.pc := rfl
@[simp] theorem State.setI_sp (s : State) (w : IndexVal) : (s.setI w).sp = s.sp := rfl
@[simp] theorem State.setI_stack (s : State) (w : IndexVal) : (s.setI w).stack = s.stack := rfl
@[simp] theorem State.setI_dt (s : State) (w : IndexVal) : (s.setI w).dt = s.dt := rfl
@[simp] theorem State.setI_st (s : State) (w : IndexVal) : (s.setI w).st = s.st := rfl
@[simp] theorem State.setI_mem (s : State) (w : IndexVal) : (s.setI w).mem = s.mem := rfl
@[simp] theorem State.setI_fb (s : State) (w : IndexVal) : (s.setI w).fb = s.fb := rfl
@[simp] theorem State.setI_drawRequested (s : State) (w : IndexVal) : (s.setI w).drawRequested = s.drawRequested := rfl
@[simp] theorem State.setI_soundRequested (s : State) (w : IndexVal) : (s.setI w).soundRequested = s.soundRequested := rfl
@[simp] theorem State.setI_warning (s : State) (w : IndexVal) : (s.setI w).warning = s.warning := rfl
@[simp] theorem State.setI_drawPulse (s : State) (w : IndexVal) : (s.setI w).drawPulse = s.drawPulse := rfl
@[simp] theorem State.setI_soundPulse (s : State) (w : IndexVal) : (s.setI w).soundPulse = s.soundPulse := rfl
@[simp] theorem State.setI_inputs (s : State) (w : IndexVal) : (s.setI w).inputs = s.inputs := rfl
@[simp] theorem State.setI_inputIndex (s : State) (w : IndexVal) : (s.setI w).inputIndex = s.inputIndex := rfl
@[simp] theorem State.setI_params (s : State) (w : IndexVal) : (s.setI w).params = s.params := rfl

@[simp] theorem State.setPc_v (s : State) (w : PcVal) : (s.setPc w).v = s.v := rfl
@[simp] theorem State.setPc_i (s : State) (w : PcVal) : (s.setPc w).i = s.i := rfl
@[simp] theorem State.setPc_pc (s : State) (w : PcVal) : (s.setPc w).pc = w := rfl
@[simp] theorem State.setPc_sp (s : State) (w : PcVal) : (s.setPc w).sp = s.sp := rfl
@[simp] theorem State.setPc_stack (s : State) (w : PcVal) : (s.setPc w).stack = s.stack := rfl
@[simp] theorem State.setPc_dt (s : State) (w : PcVal) : (s.setPc w).dt = s.dt := rfl
@[simp] theorem State.setPc_st (s : State) (w : PcVal) : (s.setPc w).st = s.st := rfl
@[simp] theorem State.setPc_mem (s : State) (w : PcVal) : (s.setPc w).mem = s.mem := rfl
@[simp] theorem State.setPc_fb (s : State) (w : PcVal) : (s.setPc w).fb = s.fb := rfl
@[simp] theorem State.setPc_drawRequested (s : State) (w : PcVal) : (s.setPc w).drawRequested = s.drawRequested := rfl
@[simp] theorem State.setPc_soundRequested (s : State) (w : PcVal) : (s.setPc w).soundRequested = s.soundRequested := rfl
@[simp] theorem State.setPc_warning (s : State) (w : PcVal) : (s.setPc w).warning = s.warning := rfl
@[simp] theorem State.setPc_drawPulse (s : State) (w : PcVal) : (s.setPc w).drawPulse = s.drawPulse := rfl
@[simp] theorem State.setPc_soundPulse (s : State) (w : PcVal) : (s.setPc w).soundPulse = s.soundPulse := rfl
@[simp] theorem State.setPc_inputs (s : State) (w : PcVal) : (s.setPc w).inputs = s.inputs := rfl
@[simp] theorem State.setPc_inputIndex (s : State) (w : PcVal) : (s.setPc w).inputIndex = s.inputIndex := rfl
@[simp] theorem State.setPc_params (s : State) (w : PcVal) : (s.setPc w).params = s.params := rfl

@[simp] theorem State.setDt_v (s : State) (b : TimerVal) : (s.setDt b).v = s.v := rfl
@[simp] theorem State.setDt_i (s : State) (b : TimerVal) : (s.setDt b).i = s.i := rfl
@[simp] theorem State.setDt_pc (s : State) (b : TimerVal) : (s.setDt b).pc = s.pc := rfl
@[simp] theorem State.setDt_sp (s : State) (b : TimerVal) : (s.setDt b).sp = s.sp := rfl
@[simp] theorem State.setDt_stack (s : State) (b : TimerVal) : (s.setDt b).stack = s.stack := rfl
@[simp] theorem State.setDt_dt (s : State) (b : TimerVal) : (s.setDt b).dt = b := rfl
@[simp] theorem State.setDt_st (s : State) (b : TimerVal) : (s.setDt b).st = s.st := rfl
@[simp] theorem State.setDt_mem (s : State) (b : TimerVal) : (s.setDt b).mem = s.mem := rfl
@[simp] theorem State.setDt_fb (s : State) (b : TimerVal) : (s.setDt b).fb = s.fb := rfl
@[simp] theorem State.setDt_drawRequested (s : State) (b : TimerVal) : (s.setDt b).drawRequested = s.drawRequested := rfl
@[simp] theorem State.setDt_soundRequested (s : State) (b : TimerVal) : (s.setDt b).soundRequested = s.soundRequested := rfl
@[simp] theorem State.setDt_warning (s : State) (b : TimerVal) : (s.setDt b).warning = s.warning := rfl
@[simp] theorem State.setDt_drawPulse (s : State) (b : TimerVal) : (s.setDt b).drawPulse = s.drawPulse := rfl
@[simp] theorem State.setDt_soundPulse (s : State) (b : TimerVal) : (s.setDt b).soundPulse = s.soundPulse := rfl
@[simp] theorem State.setDt_inputs (s : State) (b : TimerVal) : (s.setDt b).inputs = s.inputs := rfl
@[simp] theorem State.setDt_inputIndex (s : State) (b : TimerVal) : (s.setDt b).inputIndex = s.inputIndex := rfl
@[simp] theorem State.setDt_params (s : State) (b : TimerVal) : (s.setDt b).params = s.params := rfl

@[simp] theorem State.setSt_v (s : State) (b : TimerVal) : (s.setSt b).v = s.v := rfl
@[simp] theorem State.setSt_i (s : State) (b : TimerVal) : (s.setSt b).i = s.i := rfl
@[simp] theorem State.setSt_pc (s : State) (b : TimerVal) : (s.setSt b).pc = s.pc := rfl
@[simp] theorem State.setSt_sp (s : State) (b : TimerVal) : (s.setSt b).sp = s.sp := rfl
@[simp] theorem State.setSt_stack (s : State) (b : TimerVal) : (s.setSt b).stack = s.stack := rfl
@[simp] theorem State.setSt_dt (s : State) (b : TimerVal) : (s.setSt b).dt = s.dt := rfl
@[simp] theorem State.setSt_st (s : State) (b : TimerVal) : (s.setSt b).st = b := rfl
@[simp] theorem State.setSt_mem (s : State) (b : TimerVal) : (s.setSt b).mem = s.mem := rfl
@[simp] theorem State.setSt_fb (s : State) (b : TimerVal) : (s.setSt b).fb = s.fb := rfl
@[simp] theorem State.setSt_drawRequested (s : State) (b : TimerVal) : (s.setSt b).drawRequested = s.drawRequested := rfl
@[simp] theorem State.setSt_soundRequested (s : State) (b : TimerVal) : (s.setSt b).soundRequested = s.soundRequested := rfl
@[simp] theorem State.setSt_warning (s : State) (b : TimerVal) : (s.setSt b).warning = s.warning := rfl
@[simp] theorem State.setSt_drawPulse (s : State) (b : TimerVal) : (s.setSt b).drawPulse = s.drawPulse := rfl
@[simp] theorem State.setSt_soundPulse (s : State) (b : TimerVal) : (s.setSt b).soundPulse = s.soundPulse := rfl
@[simp] theorem State.setSt_inputs (s : State) (b : TimerVal) : (s.setSt b).inputs = s.inputs := rfl
@[simp] theorem State.setSt_inputIndex (s : State) (b : TimerVal) : (s.setSt b).inputIndex = s.inputIndex := rfl
@[simp] theorem State.setSt_params (s : State) (b : TimerVal) : (s.setSt b).params = s.params := rfl

@[simp] theorem State.setByte_v (s : State) (a : Nat) (b : Byte) : (s.setByte a b).v = s.v := rfl
@[simp] theorem State.setByte_i (s : State) (a : Nat) (b : Byte) : (s.setByte a b).i = s.i := rfl
@[simp] theorem State.setByte_pc (s : State) (a : Nat) (b : Byte) : (s.setByte a b).pc = s.pc := rfl
@[simp] theorem State.setByte_sp (s : State) (a : Nat) (b : Byte) : (s.setByte a b).sp = s.sp := rfl
@[simp] theorem State.setByte_stack (s : State) (a : Nat) (b : Byte) : (s.setByte a b).stack = s.stack := rfl
@[simp] theorem State.setByte_dt (s : State) (a : Nat) (b : Byte) : (s.setByte a b).dt = s.dt := rfl
@[simp] theorem State.setByte_st (s : State) (a : Nat) (b : Byte) : (s.setByte a b).st = s.st := rfl
@[simp] theorem State.setByte_mem (s : State) (a : Nat) (b : Byte) : (s.setByte a b).mem = Memory.write s.params.font s.mem a b := rfl
@[simp] theorem State.setByte_fb (s : State) (a : Nat) (b : Byte) : (s.setByte a b).fb = s.fb := rfl
@[simp] theorem State.setByte_drawRequested (s : State) (a : Nat) (b : Byte) : (s.setByte a b).drawRequested = s.drawRequested := rfl
@[simp] theorem State.setByte_soundRequested (s : State) (a : Nat) (b : Byte) : (s.setByte a b).soundRequested = s.soundRequested := rfl
@[simp] theorem State.setByte_warning (s : State) (a : Nat) (b : Byte) : (s.setByte a b).warning = s.warning := rfl
@[simp] theorem State.setByte_drawPulse (s : State) (a : Nat) (b : Byte) : (s.setByte a b).drawPulse = s.drawPulse := rfl
@[simp] theorem State.setByte_soundPulse (s : State) (a : Nat) (b : Byte) : (s.setByte a b).soundPulse = s.soundPulse := rfl
@[simp] theorem State.setByte_inputs (s : State) (a : Nat) (b : Byte) : (s.setByte a b).inputs = s.inputs := rfl
@[simp] theorem State.setByte_inputIndex (s : State) (a : Nat) (b : Byte) : (s.setByte a b).inputIndex = s.inputIndex := rfl
@[simp] theorem State.setByte_params (s : State) (a : Nat) (b : Byte) : (s.setByte a b).params = s.params := rfl

@[simp] theorem State.setFb_v (s : State) (p : Fin Config.fbCells) (b : BitVec 1) : (s.setFb p b).v = s.v := rfl
@[simp] theorem State.setFb_i (s : State) (p : Fin Config.fbCells) (b : BitVec 1) : (s.setFb p b).i = s.i := rfl
@[simp] theorem State.setFb_pc (s : State) (p : Fin Config.fbCells) (b : BitVec 1) : (s.setFb p b).pc = s.pc := rfl
@[simp] theorem State.setFb_sp (s : State) (p : Fin Config.fbCells) (b : BitVec 1) : (s.setFb p b).sp = s.sp := rfl
@[simp] theorem State.setFb_stack (s : State) (p : Fin Config.fbCells) (b : BitVec 1) : (s.setFb p b).stack = s.stack := rfl
@[simp] theorem State.setFb_dt (s : State) (p : Fin Config.fbCells) (b : BitVec 1) : (s.setFb p b).dt = s.dt := rfl
@[simp] theorem State.setFb_st (s : State) (p : Fin Config.fbCells) (b : BitVec 1) : (s.setFb p b).st = s.st := rfl
@[simp] theorem State.setFb_mem (s : State) (p : Fin Config.fbCells) (b : BitVec 1) : (s.setFb p b).mem = s.mem := rfl
@[simp] theorem State.setFb_drawRequested (s : State) (p : Fin Config.fbCells) (b : BitVec 1) : (s.setFb p b).drawRequested = s.drawRequested := rfl
@[simp] theorem State.setFb_soundRequested (s : State) (p : Fin Config.fbCells) (b : BitVec 1) : (s.setFb p b).soundRequested = s.soundRequested := rfl
@[simp] theorem State.setFb_warning (s : State) (p : Fin Config.fbCells) (b : BitVec 1) : (s.setFb p b).warning = s.warning := rfl
@[simp] theorem State.setFb_drawPulse (s : State) (p : Fin Config.fbCells) (b : BitVec 1) : (s.setFb p b).drawPulse = s.drawPulse := rfl
@[simp] theorem State.setFb_soundPulse (s : State) (p : Fin Config.fbCells) (b : BitVec 1) : (s.setFb p b).soundPulse = s.soundPulse := rfl
@[simp] theorem State.setFb_inputs (s : State) (p : Fin Config.fbCells) (b : BitVec 1) : (s.setFb p b).inputs = s.inputs := rfl
@[simp] theorem State.setFb_inputIndex (s : State) (p : Fin Config.fbCells) (b : BitVec 1) : (s.setFb p b).inputIndex = s.inputIndex := rfl
@[simp] theorem State.setFb_params (s : State) (p : Fin Config.fbCells) (b : BitVec 1) : (s.setFb p b).params = s.params := rfl

@[simp] theorem State.clearFb_v (s : State) : (s.clearFb).v = s.v := rfl
@[simp] theorem State.clearFb_i (s : State) : (s.clearFb).i = s.i := rfl
@[simp] theorem State.clearFb_pc (s : State) : (s.clearFb).pc = s.pc := rfl
@[simp] theorem State.clearFb_sp (s : State) : (s.clearFb).sp = s.sp := rfl
@[simp] theorem State.clearFb_stack (s : State) : (s.clearFb).stack = s.stack := rfl
@[simp] theorem State.clearFb_dt (s : State) : (s.clearFb).dt = s.dt := rfl
@[simp] theorem State.clearFb_st (s : State) : (s.clearFb).st = s.st := rfl
@[simp] theorem State.clearFb_mem (s : State) : (s.clearFb).mem = s.mem := rfl
@[simp] theorem State.clearFb_fb (s : State) : (s.clearFb).fb = blankFb := rfl
@[simp] theorem State.clearFb_drawRequested (s : State) : (s.clearFb).drawRequested = s.drawRequested := rfl
@[simp] theorem State.clearFb_soundRequested (s : State) : (s.clearFb).soundRequested = s.soundRequested := rfl
@[simp] theorem State.clearFb_warning (s : State) : (s.clearFb).warning = s.warning := rfl
@[simp] theorem State.clearFb_drawPulse (s : State) : (s.clearFb).drawPulse = s.drawPulse := rfl
@[simp] theorem State.clearFb_soundPulse (s : State) : (s.clearFb).soundPulse = s.soundPulse := rfl
@[simp] theorem State.clearFb_inputs (s : State) : (s.clearFb).inputs = s.inputs := rfl
@[simp] theorem State.clearFb_inputIndex (s : State) : (s.clearFb).inputIndex = s.inputIndex := rfl
@[simp] theorem State.clearFb_params (s : State) : (s.clearFb).params = s.params := rfl

@[simp] theorem State.requestDraw_v (s : State) : (s.requestDraw).v = s.v := rfl
@[simp] theorem State.requestDraw_i (s : State) : (s.requestDraw).i = s.i := rfl
@[simp] theorem State.requestDraw_pc (s : State) : (s.requestDraw).pc = s.pc := rfl
@[simp] theorem State.requestDraw_sp (s : State) : (s.requestDraw).sp = s.sp := rfl
@[simp] theorem State.requestDraw_stack (s : State) : (s.requestDraw).stack = s.stack := rfl
@[simp] theorem State.requestDraw_dt (s : State) : (s.requestDraw).dt = s.dt := rfl
@[simp] theorem State.requestDraw_st (s : State) : (s.requestDraw).st = s.st := rfl
@[simp] theorem State.requestDraw_mem (s : State) : (s.requestDraw).mem = s.mem := rfl
@[simp] theorem State.requestDraw_fb (s : State) : (s.requestDraw).fb = s.fb := rfl
@[simp] theorem State.requestDraw_drawRequested (s : State) : (s.requestDraw).drawRequested = true := rfl
@[simp] theorem State.requestDraw_soundRequested (s : State) : (s.requestDraw).soundRequested = s.soundRequested := rfl
@[simp] theorem State.requestDraw_warning (s : State) : (s.requestDraw).warning = s.warning := rfl
@[simp] theorem State.requestDraw_drawPulse (s : State) : (s.requestDraw).drawPulse = true := rfl
@[simp] theorem State.requestDraw_soundPulse (s : State) : (s.requestDraw).soundPulse = s.soundPulse := rfl
@[simp] theorem State.requestDraw_inputs (s : State) : (s.requestDraw).inputs = s.inputs := rfl
@[simp] theorem State.requestDraw_inputIndex (s : State) : (s.requestDraw).inputIndex = s.inputIndex := rfl
@[simp] theorem State.requestDraw_params (s : State) : (s.requestDraw).params = s.params := rfl

@[simp] theorem State.clearOutputs_v (s : State) : (s.clearOutputs).v = s.v := rfl
@[simp] theorem State.clearOutputs_i (s : State) : (s.clearOutputs).i = s.i := rfl
@[simp] theorem State.clearOutputs_pc (s : State) : (s.clearOutputs).pc = s.pc := rfl
@[simp] theorem State.clearOutputs_sp (s : State) : (s.clearOutputs).sp = s.sp := rfl
@[simp] theorem State.clearOutputs_stack (s : State) : (s.clearOutputs).stack = s.stack := rfl
@[simp] theorem State.clearOutputs_dt (s : State) : (s.clearOutputs).dt = s.dt := rfl
@[simp] theorem State.clearOutputs_st (s : State) : (s.clearOutputs).st = s.st := rfl
@[simp] theorem State.clearOutputs_mem (s : State) : (s.clearOutputs).mem = s.mem := rfl
@[simp] theorem State.clearOutputs_fb (s : State) : (s.clearOutputs).fb = s.fb := rfl
@[simp] theorem State.clearOutputs_drawRequested (s : State) : (s.clearOutputs).drawRequested = s.drawRequested := rfl
@[simp] theorem State.clearOutputs_soundRequested (s : State) : (s.clearOutputs).soundRequested = s.soundRequested := rfl
@[simp] theorem State.clearOutputs_warning (s : State) : (s.clearOutputs).warning = none := rfl
@[simp] theorem State.clearOutputs_drawPulse (s : State) : (s.clearOutputs).drawPulse = false := rfl
@[simp] theorem State.clearOutputs_soundPulse (s : State) : (s.clearOutputs).soundPulse = false := rfl
@[simp] theorem State.clearOutputs_inputs (s : State) : (s.clearOutputs).inputs = s.inputs := rfl
@[simp] theorem State.clearOutputs_inputIndex (s : State) : (s.clearOutputs).inputIndex = s.inputIndex := rfl
@[simp] theorem State.clearOutputs_params (s : State) : (s.clearOutputs).params = s.params := rfl

@[simp] theorem State.warn_v (s : State) (w : Word) : (s.warn w).v = s.v := rfl
@[simp] theorem State.warn_i (s : State) (w : Word) : (s.warn w).i = s.i := rfl
@[simp] theorem State.warn_pc (s : State) (w : Word) : (s.warn w).pc = s.pc := rfl
@[simp] theorem State.warn_sp (s : State) (w : Word) : (s.warn w).sp = s.sp := rfl
@[simp] theorem State.warn_stack (s : State) (w : Word) : (s.warn w).stack = s.stack := rfl
@[simp] theorem State.warn_dt (s : State) (w : Word) : (s.warn w).dt = s.dt := rfl
@[simp] theorem State.warn_st (s : State) (w : Word) : (s.warn w).st = s.st := rfl
@[simp] theorem State.warn_mem (s : State) (w : Word) : (s.warn w).mem = s.mem := rfl
@[simp] theorem State.warn_fb (s : State) (w : Word) : (s.warn w).fb = s.fb := rfl
@[simp] theorem State.warn_drawRequested (s : State) (w : Word) : (s.warn w).drawRequested = s.drawRequested := rfl
@[simp] theorem State.warn_soundRequested (s : State) (w : Word) : (s.warn w).soundRequested = s.soundRequested := rfl
@[simp] theorem State.warn_warning (s : State) (w : Word) : (s.warn w).warning = some w := rfl
@[simp] theorem State.warn_drawPulse (s : State) (w : Word) : (s.warn w).drawPulse = s.drawPulse := rfl
@[simp] theorem State.warn_soundPulse (s : State) (w : Word) : (s.warn w).soundPulse = s.soundPulse := rfl
@[simp] theorem State.warn_inputs (s : State) (w : Word) : (s.warn w).inputs = s.inputs := rfl
@[simp] theorem State.warn_inputIndex (s : State) (w : Word) : (s.warn w).inputIndex = s.inputIndex := rfl
@[simp] theorem State.warn_params (s : State) (w : Word) : (s.warn w).params = s.params := rfl

@[simp] theorem State.tick_v (s : State) : (s.tick).v = s.v := rfl
@[simp] theorem State.tick_i (s : State) : (s.tick).i = s.i := rfl
@[simp] theorem State.tick_pc (s : State) : (s.tick).pc = s.pc := rfl
@[simp] theorem State.tick_sp (s : State) : (s.tick).sp = s.sp := rfl
@[simp] theorem State.tick_stack (s : State) : (s.tick).stack = s.stack := rfl
@[simp] theorem State.tick_dt (s : State) : (s.tick).dt = tickDown s.dt := rfl
@[simp] theorem State.tick_st (s : State) : (s.tick).st = tickDown s.st := rfl
@[simp] theorem State.tick_mem (s : State) : (s.tick).mem = s.mem := rfl
@[simp] theorem State.tick_fb (s : State) : (s.tick).fb = s.fb := rfl
@[simp] theorem State.tick_drawRequested (s : State) : (s.tick).drawRequested = s.drawRequested := rfl
@[simp] theorem State.tick_soundRequested (s : State) : (s.tick).soundRequested = (s.soundRequested || s.st != 0) := rfl
@[simp] theorem State.tick_warning (s : State) : (s.tick).warning = s.warning := rfl
@[simp] theorem State.tick_drawPulse (s : State) : (s.tick).drawPulse = s.drawPulse := rfl
@[simp] theorem State.tick_soundPulse (s : State) : (s.tick).soundPulse = (s.soundPulse || s.st != 0) := rfl
@[simp] theorem State.tick_inputs (s : State) : (s.tick).inputs = s.inputs := rfl
@[simp] theorem State.tick_inputIndex (s : State) : (s.tick).inputIndex = s.inputIndex := rfl
@[simp] theorem State.tick_params (s : State) : (s.tick).params = s.params := rfl

@[simp] theorem State.nextInput_v (s : State) : (s.nextInput).v = s.v := rfl
@[simp] theorem State.nextInput_i (s : State) : (s.nextInput).i = s.i := rfl
@[simp] theorem State.nextInput_pc (s : State) : (s.nextInput).pc = s.pc := rfl
@[simp] theorem State.nextInput_sp (s : State) : (s.nextInput).sp = s.sp := rfl
@[simp] theorem State.nextInput_stack (s : State) : (s.nextInput).stack = s.stack := rfl
@[simp] theorem State.nextInput_dt (s : State) : (s.nextInput).dt = s.dt := rfl
@[simp] theorem State.nextInput_st (s : State) : (s.nextInput).st = s.st := rfl
@[simp] theorem State.nextInput_mem (s : State) : (s.nextInput).mem = s.mem := rfl
@[simp] theorem State.nextInput_fb (s : State) : (s.nextInput).fb = s.fb := rfl
@[simp] theorem State.nextInput_drawRequested (s : State) : (s.nextInput).drawRequested = s.drawRequested := rfl
@[simp] theorem State.nextInput_soundRequested (s : State) : (s.nextInput).soundRequested = s.soundRequested := rfl
@[simp] theorem State.nextInput_warning (s : State) : (s.nextInput).warning = s.warning := rfl
@[simp] theorem State.nextInput_drawPulse (s : State) : (s.nextInput).drawPulse = s.drawPulse := rfl
@[simp] theorem State.nextInput_soundPulse (s : State) : (s.nextInput).soundPulse = s.soundPulse := rfl
@[simp] theorem State.nextInput_inputs (s : State) : (s.nextInput).inputs = s.inputs.tail := rfl
@[simp] theorem State.nextInput_inputIndex (s : State) : (s.nextInput).inputIndex = s.inputIndex + 1 := rfl
@[simp] theorem State.nextInput_params (s : State) : (s.nextInput).params = s.params := rfl

end Sys2Proof.Machine
end

