-- ==== Sys2Proof/Laws/Memory.lean ====
section
/-! SUPPORT. Main memory: a read after a write, and the canonical form, which every operation keeps. -/

namespace Sys2Proof.Machine

theorem Memory.read_of_unlisted (font : Font) (m : Memory) (a : Nat) (h : ∀ c ∈ m, c.1 ≠ a) :
    Memory.read font m a = resetByte font a := by
  induction m with
  | nil => rfl
  | cons c m ih =>
    have hc : c.1 ≠ a := h c (by simp)
    simp only [Memory.read, if_neg hc]
    exact ih fun d hd => h d (by simp [hd])

theorem Memory.read_filter (font : Font) (m : Memory) {a b : Nat} (h : b ≠ a) :
    Memory.read font (m.filter fun c => c.1 ≠ a) b = Memory.read font m b := by
  induction m with
  | nil => rfl
  | cons c m ih =>
    by_cases hc : c.1 = a
    · have hb : c.1 ≠ b := fun e => h (e ▸ hc)
      simp only [List.filter_cons, hc, ne_eq, not_true_eq_false, decide_false, Bool.false_eq_true,
        if_false, Memory.read]
      rw [if_neg (hc ▸ hb)]
      exact ih
    · simp only [List.filter_cons, hc, ne_eq, not_false_eq_true, decide_true, if_true, Memory.read]
      split
      · rfl
      · exact ih

theorem Memory.read_insert (font : Font) (m : Memory) (a b : Nat) (v : Byte) (h : ∀ c ∈ m, c.1 ≠ a) :
    Memory.read font (Memory.insert (a, v) m) b = if b = a then v else Memory.read font m b := by
  induction m with
  | nil => simp [Memory.insert, Memory.read, eq_comm]
  | cons d m ih =>
    have hd : d.1 ≠ a := h d (by simp)
    have hm : ∀ c ∈ m, c.1 ≠ a := fun c hc => h c (by simp [hc])
    unfold Memory.insert
    split
    · simp [Memory.read, eq_comm]
    · simp only [Memory.read, ih hm]
      by_cases hb : b = a
      · subst hb
        simp [hd]
      · simp [hb]

/-- A read after a write: the byte written at its address, the old byte elsewhere. -/
theorem Memory.read_write (font : Font) (m : Memory) (a b : Nat) (v : Byte) :
    Memory.read font (Memory.write font m a v) b = if b = a then v else Memory.read font m b := by
  have hne : ∀ c ∈ m.filter (fun c => c.1 ≠ a), c.1 ≠ a := fun c hc => by simpa using (List.mem_filter.mp hc).2
  unfold Memory.write
  simp only
  split
  · next hv =>
    by_cases hb : b = a
    · subst hb
      rw [if_pos rfl, Memory.read_of_unlisted _ _ _ hne, hv]
    · rw [if_neg hb, Memory.read_filter _ _ hb]
  · rw [Memory.read_insert _ _ _ _ _ hne]
    by_cases hb : b = a
    · simp [hb]
    · rw [if_neg hb, if_neg hb, Memory.read_filter _ _ hb]

theorem Memory.mem_insert (c d : Host.Cell) (m : Memory) :
    d ∈ Memory.insert c m ↔ d = c ∨ d ∈ m := by
  induction m with
  | nil => simp [Memory.insert]
  | cons e m ih =>
    unfold Memory.insert
    split
    · simp
    · simp [ih, or_left_comm]

theorem Memory.insert_rising (c : Host.Cell) (m : Memory) (h : ∀ d ∈ m, d.1 ≠ c.1)
    (hm : m.Pairwise fun c d => c.1 < d.1) : (Memory.insert c m).Pairwise fun c d => c.1 < d.1 := by
  induction m with
  | nil => simp [Memory.insert]
  | cons e m ih =>
    obtain ⟨he, hm'⟩ := List.pairwise_cons.mp hm
    unfold Memory.insert
    split
    · next hlt =>
      refine List.pairwise_cons.mpr ⟨fun d hd => ?_, hm⟩
      rcases List.mem_cons.mp hd with rfl | hd
      · exact hlt
      · exact Nat.lt_trans hlt (he d hd)
    · next hlt =>
      have hne : e.1 ≠ c.1 := h e (by simp)
      refine List.pairwise_cons.mpr ⟨fun d hd => ?_, ih (fun d hd => h d (by simp [hd])) hm'⟩
      rcases (Memory.mem_insert c d m).mp hd with rfl | hd
      · omega
      · exact he d hd

theorem Memory.wf_nil (font : Font) : Memory.wf font [] := by simp [Memory.wf]

/-- A write inside the memory keeps the canonical form. -/
theorem Memory.wf_write (font : Font) (m : Memory) (a : Nat) (v : Byte) (ha : a < Config.memSize)
    (h : Memory.wf font m) : Memory.wf font (Memory.write font m a v) := by
  obtain ⟨hr, hc⟩ := h
  have hr' := hr.filter (fun c => decide (c.1 ≠ a))
  have hne : ∀ c ∈ m.filter (fun c => c.1 ≠ a), c.1 ≠ a := fun c hc => by simpa using (List.mem_filter.mp hc).2
  have hc' : ∀ c ∈ m.filter (fun c => c.1 ≠ a), c.1 < Config.memSize ∧ c.2 ≠ resetByte font c.1 :=
    fun c hm => hc c (List.mem_filter.mp hm).1
  unfold Memory.write
  simp only
  split
  · exact ⟨hr', hc'⟩
  · next hv =>
    refine ⟨Memory.insert_rising _ _ hne hr', fun c hm => ?_⟩
    rcases (Memory.mem_insert _ _ _).mp hm with rfl | hm
    · exact ⟨ha, hv⟩
    · exact hc' c hm

/-- A read of one byte after a write of one byte (spec/20_memory.md R68). -/
@[simp] theorem State.byteAt_setByte (s : State) (a b : Nat) (v : Byte) :
    (s.setByte a v).byteAt b = if b = a then v else s.byteAt b :=
  Memory.read_write _ _ _ _ _

theorem State.byteAt_eq_of_mem {s t : State} (hm : t.mem = s.mem) (hp : t.params = s.params) (a : Nat) :
    t.byteAt a = s.byteAt a := by
  simp [State.byteAt, hm, hp]

end Sys2Proof.Machine
end

