-- ==== Sys2Proof/Laws/Ops.lean ====
section
/-! SUPPORT. What each shared operation over registers, framebuffer, stack and timers does, said once. -/

namespace Sys2Proof.Machine

/-! ### The widths of the configuration as numbers (spec/00_scope.md R6) -/

theorem toNat_regVal (b : RegVal) : b.toNat < 256 := b.isLt

theorem toNat_timerVal (b : TimerVal) : b.toNat < 256 := b.isLt

theorem toNat_indexVal (w : IndexVal) : w.toNat < 65536 := w.isLt

theorem toNat_pcVal (w : PcVal) : w.toNat < 65536 := w.isLt

/-! ### Registers -/

@[simp] theorem State.getV_setV (s : State) (x y : Reg) (b : RegVal) :
    (s.setV x b).getV y = if y = x then b else s.getV y := by
  simp [State.getV, State.setV, Vector.getElem_set, Fin.ext_iff, eq_comm]

@[simp] theorem State.getV_setFlag (s : State) (y : Reg) (b : RegVal) :
    (s.setFlag b).getV y = if y = flagReg then b else s.getV y :=
  State.getV_setV s flagReg y b

theorem State.getV_eq_of_v {s t : State} (h : t.v = s.v) (r : Reg) : t.getV r = s.getV r := by
  simp [State.getV, h]

/-- Two states with the same registers by number have the same register file. -/
theorem State.v_eq_of_getV {s t : State} (h : ∀ r, t.getV r = s.getV r) : t.v = s.v := by
  apply Vector.ext
  intro k hk
  exact h ⟨k, hk⟩

/-! ### Framebuffer -/

@[simp] theorem State.getFb_setFb (s : State) (p q : Fin Config.fbCells) (b : BitVec 1) :
    (s.setFb p b).getFb q = if q = p then b else s.getFb q := by
  have hp : p.val / 64 = q.val / 64 → p.val % 64 = q.val % 64 → q = p := fun h1 h2 => by
    apply Fin.ext
    have := Nat.div_add_mod p.val 64
    have := Nat.div_add_mod q.val 64
    omega
  by_cases hq : q = p
  · subst hq
    simp [State.getFb, State.setFb]
  · rw [if_neg hq]
    by_cases h1 : p.val / 64 = q.val / 64
    · have h2 : p.val % 64 ≠ q.val % 64 := fun h2 => hq (hp h1 h2)
      simp [State.getFb, State.setFb, h1, h2]
    · simp [State.getFb, State.setFb, h1]

@[simp] theorem State.getFb_clearFb (s : State) (p : Fin Config.fbCells) : s.clearFb.getFb p = 0 := by
  simp [State.getFb, State.clearFb, blankFb]

theorem State.getFb_eq_of_fb {s t : State} (h : t.fb = s.fb) (p : Fin Config.fbCells) :
    t.getFb p = s.getFb p := by
  simp [State.getFb, h]

@[simp] theorem cellIndex_val (px : Fin Config.fbWidth) (py : Fin Config.fbHeight) :
    (cellIndex px py).val = py.val * 64 + px.val := rfl

/-! ### Program counter -/

@[simp] theorem instrStep_eq : instrStep = 2 := rfl

/-- A skip changes nothing but `pc`. -/
theorem State.skipIf_eq (s : State) (c : Bool) :
    s.skipIf c = s.setPc (if c then s.pc + 2 else s.pc) := by
  cases c <;> rfl

/-! ### Stack -/

/-- A push changes `sp` and one entry, or nothing. -/
theorem State.pushPc_cases (s : State) :
    (∃ h : s.sp.val < Config.stackDepth, s.pushPc =
      { s with stack := s.stack.set s.sp.val s.pc, sp := ⟨s.sp.val + 1, Nat.succ_lt_succ h⟩ }) ∨
    (s.sp.val = 32 ∧ s.pushPc = s) := by
  have hlt : s.sp.val < 33 := s.sp.isLt
  by_cases h : s.sp.val < Config.stackDepth
  · exact .inl ⟨h, by simp only [State.pushPc, dif_pos h]⟩
  · exact .inr ⟨by simp at h; omega, by simp only [State.pushPc, dif_neg h]⟩

/-- A pop changes `sp` and `pc`, or nothing. -/
theorem State.popPc_cases (s : State) :
    (∃ (_ : 0 < s.sp.val) (hs : s.sp.val - 1 < Config.stackDepth + 1) (hk : s.sp.val - 1 < Config.stackDepth),
      s.popPc =
      { s with sp := ⟨s.sp.val - 1, hs⟩, pc := s.stack[s.sp.val - 1] }) ∨
    (s.sp.val = 0 ∧ s.popPc = s) := by
  have hlt : s.sp.val < 33 := s.sp.isLt
  by_cases h : 0 < s.sp.val
  · exact .inl ⟨h, by simp; omega, by simp; omega, by simp only [State.popPc, dif_pos h]⟩
  · exact .inr ⟨by omega, by simp only [State.popPc, dif_neg h]⟩

/-! ### Timers -/

/-- A timer that ticks: one less, or still 0 (R124). -/
theorem tickDown_toNat (b : TimerVal) : (tickDown b).toNat = b.toNat - 1 := by
  unfold tickDown
  split
  · next h => simp [h]
  · next h =>
    have : b.toNat ≠ 0 := fun h0 => h (BitVec.eq_of_toNat_eq (by simpa using h0))
    have := toNat_timerVal b
    rw [BitVec.toNat_sub]
    simp
    omega

/-! ### Inputs -/

@[simp] theorem State.keys_of_supplied (s : State) (inp : StepInput) (l : List StepInput)
    (h : s.inputs = inp :: l) : s.keys = inp.keys := by
  simp [State.keys, h]

@[simp] theorem State.rnd_of_supplied (s : State) (inp : StepInput) (l : List StepInput)
    (h : s.inputs = inp :: l) : s.rnd = inp.rnd := by
  simp [State.rnd, h]

end Sys2Proof.Machine
end

