-- ==== Sys2Proof/Laws/Transfer.lean ====
section
/-! SUPPORT. Byte transfers at ascending addresses: when they complete, what they move, and which
address the fault names (spec/20_memory.md R65, R67). -/

namespace Sys2Proof.Machine

theorem State.readByte_inside (s : State) (a : Nat) (h : a < 4096) : s.readByte a = .ok (s.byteAt a) := by
  simp [State.readByte, h]

theorem State.readByte_outside (s : State) (a : Nat) (h : 4096 ≤ a) :
    s.readByte a = .error (.dataRange a) := by
  simp [State.readByte, Nat.not_lt.mpr h]

theorem State.writeByte_inside (s : State) (a : Nat) (b : Byte) (h : a < 4096) :
    s.writeByte a b = .ok (s.setByte a b) := by
  simp [State.writeByte, h]

theorem State.writeByte_outside (s : State) (a : Nat) (b : Byte) (h : 4096 ≤ a) :
    s.writeByte a b = .error (.dataRange a) := by
  simp [State.writeByte, Nat.not_lt.mpr h]

/-- A store that fits completes: it writes exactly its bytes, touches memory alone, and keeps the
canonical form. -/
theorem State.storeBytes_fits (bs : List Byte) (s : State) (a : Nat) (h : a + bs.length ≤ 4096) :
    ∃ m, s.storeBytes a bs = .ok { s with mem := m } ∧
      (∀ b, ({ s with mem := m } : State).byteAt b =
        if h : a ≤ b ∧ b - a < bs.length then bs[b - a]'h.2 else s.byteAt b) ∧
      (Memory.wf s.params.font s.mem → Memory.wf s.params.font m) := by
  induction bs generalizing s a with
  | nil => exact ⟨s.mem, rfl, fun b => by simp, id⟩
  | cons c bs ih =>
    have h' : a + bs.length + 1 ≤ 4096 := h
    obtain ⟨m, hm, hb, hw⟩ := ih (s.setByte a c) (a + 1) (by omega)
    refine ⟨m, ?_, fun b => ?_, fun hs => hw ?_⟩
    · simp only [State.storeBytes, State.writeByte_inside s a c (by omega)]
      exact hm
    · have hb' := hb b
      have he : ({ s.setByte a c with mem := m } : State) = { s with mem := m } := rfl
      rw [he] at hb'
      rw [hb', State.byteAt_setByte]
      by_cases h1 : b = a
      · rw [dif_neg (by omega), if_pos h1, dif_pos ⟨by omega, by simp; omega⟩]
        simp [h1]
      · by_cases h2 : a ≤ b ∧ b - a < bs.length + 1
        · have h3 : a + 1 ≤ b ∧ b - (a + 1) < bs.length := by omega
          have h4 : b - a = b - (a + 1) + 1 := by omega
          simp [h2, h3, h4]
        · have h3 : ¬ (a + 1 ≤ b ∧ b - (a + 1) < bs.length) := by omega
          rw [dif_neg h3, if_neg h1, dif_neg (by simpa using h2)]
    · exact Memory.wf_write _ _ _ _ (by simp; omega) hs

/-- A store that does not fit faults, and names the first address outside the memory. -/
theorem State.storeBytes_faults (bs : List Byte) (s : State) (a : Nat) (hne : bs ≠ [])
    (h : 4096 < a + bs.length) : s.storeBytes a bs = .error (.dataRange (max a 4096)) := by
  induction bs generalizing s a with
  | nil => exact absurd rfl hne
  | cons c bs ih =>
    have h' : 4096 < a + bs.length + 1 := h
    by_cases ha : a < 4096
    · have hbs : bs ≠ [] := fun e => by subst e; simp at h'; omega
      simp only [State.storeBytes, State.writeByte_inside s a c ha]
      rw [ih (s.setByte a c) (a + 1) hbs (by omega)]
      congr 2
      omega
    · simp only [State.storeBytes, State.writeByte_outside s a c (by omega)]
      congr 2
      omega

/-- A load of registers that fits completes: each listed register has the byte at `I` plus its number,
every other register and the rest of the state are unchanged. -/
theorem State.loadRegs_fits (rs : List Reg) (s : State) (h : ∀ r ∈ rs, s.i.toNat + r.val < 4096) :
    ∃ v, s.loadRegs rs = .ok { s with v := v } ∧
      ∀ r, ({ s with v := v } : State).getV r = if r ∈ rs then s.byteAt (s.i.toNat + r.val) else s.getV r := by
  induction rs generalizing s with
  | nil => exact ⟨s.v, rfl, fun r => by simp⟩
  | cons q rs ih =>
    obtain ⟨v, hv, hg⟩ := ih (s.setV q (s.byteAt (s.i.toNat + q.val))) (fun r hr => h r (by simp [hr]))
    refine ⟨v, ?_, fun r => ?_⟩
    · simp only [State.loadRegs, State.readByte_inside s _ (h q (by simp))]
      exact hv
    · have hg' := hg r
      have he : ({ s.setV q (s.byteAt (s.i.toNat + q.val)) with v := v } : State) = { s with v := v } := rfl
      have hb : (s.setV q (s.byteAt (s.i.toNat + q.val))).byteAt (s.i.toNat + r.val) = s.byteAt (s.i.toNat + r.val) :=
        State.byteAt_eq_of_mem rfl rfl _
      rw [he] at hg'
      rw [hg', State.setV_i, hb, State.getV_setV]
      by_cases hr : r ∈ rs
      · simp [hr]
      · by_cases hq : r = q
        · subst hq
          simp
        · simp [hr, hq]

/-- The registers `V0..Vx` are the registers up to `x`. -/
theorem mem_regsUpTo (x r : Reg) : r ∈ regsUpTo x ↔ r ≤ x := by
  unfold regsUpTo
  rw [List.mem_take_iff_getElem]
  constructor
  · rintro ⟨k, hk, rfl⟩
    simp at hk ⊢
    exact Fin.mk_le_of_le_val (by omega)
  · intro h
    have h' : r.val ≤ x.val := h
    have hr : r.val < 16 := r.isLt
    exact ⟨r.val, by simp; omega, by simp⟩

@[simp] theorem length_regsUpTo (x : Reg) : (regsUpTo x).length = x.val + 1 := by
  have hx : x.val < 16 := x.isLt
  simp only [regsUpTo, List.length_take, List.length_finRange, Config.numV]
  omega

theorem getElem_regsUpTo (x : Reg) (k : Nat) (h : k < (regsUpTo x).length) :
    (regsUpTo x)[k] = ⟨k, by have hx : x.val < 16 := x.isLt; simp at h; simp; omega⟩ := by
  simp [regsUpTo]

theorem getElem_valuesUpTo (s : State) (x : Reg) (k : Nat) (h : k < (s.valuesUpTo x).length) :
    (s.valuesUpTo x)[k] = s.getV ⟨k, by have hx : x.val < 16 := x.isLt; simp [State.valuesUpTo] at h; simp; omega⟩ := by
  simp [State.valuesUpTo, getElem_regsUpTo]

@[simp] theorem length_valuesUpTo (s : State) (x : Reg) : (s.valuesUpTo x).length = x.val + 1 := by
  simp [State.valuesUpTo]

/-- A load along registers whose numbers rise by one faults at the first address outside, if there is one. -/
theorem State.loadRegs_faults (rs : List Reg) (s : State) (k : Nat) (hne : rs ≠ [])
    (hk : ∀ j (h : j < rs.length), rs[j].val = k + j) (h : 4096 < s.i.toNat + k + rs.length) :
    s.loadRegs rs = .error (.dataRange (max (s.i.toNat + k) 4096)) := by
  induction rs generalizing s k with
  | nil => exact absurd rfl hne
  | cons q rs ih =>
    have h' : 4096 < s.i.toNat + k + rs.length + 1 := h
    have hq : q.val = k := hk 0 (by simp)
    by_cases ha : s.i.toNat + k < 4096
    · have hrs : rs ≠ [] := fun e => by subst e; simp at h'; omega
      simp only [State.loadRegs, hq, State.readByte_inside s _ ha]
      have hlen : 4096 < s.i.toNat + (k + 1) + rs.length := by omega
      rw [ih (s.setV q (s.byteAt (s.i.toNat + k))) (k + 1) hrs (fun j hj => by
        have hj' : rs[j].val = k + (j + 1) := hk (j + 1) (by simp; omega)
        omega) hlen]
      have hmax : max (s.i.toNat + (k + 1)) 4096 = max (s.i.toNat + k) 4096 := by omega
      exact congrArg (fun n => Except.error (Fault.dataRange n)) hmax
    · simp only [State.loadRegs, hq, State.readByte_outside s (s.i.toNat + k) (by omega)]
      have hmax : s.i.toNat + k = max (s.i.toNat + k) 4096 := by omega
      exact congrArg (fun n => Except.error (Fault.dataRange n)) hmax

end Sys2Proof.Machine
end

