-- ==== Sys2Proof/Laws/Draw.lean ====
section
/-! SUPPORT. The sprite draw: what any part of it can change, and when it completes or faults
(spec/44_display.md R211). -/

namespace Sys2Proof.Machine

/-- What a part of a draw does: it touches the framebuffer and the flag register alone, and it writes
the flag register with nothing but 1 (R211 (d), (e)). -/
def DrawnFrom (s t : State) : Prop :=
  (∃ v fb, t = { s with v := v, fb := fb }) ∧ (∀ r, r ≠ flagReg → t.getV r = s.getV r) ∧
  (t.getV flagReg = 1 ∨ t.getV flagReg = s.getV flagReg)

theorem DrawnFrom.refl (s : State) : DrawnFrom s s := ⟨⟨s.v, s.fb, rfl⟩, fun _ _ => rfl, .inr rfl⟩

theorem DrawnFrom.trans {s t u : State} (h : DrawnFrom s t) (k : DrawnFrom t u) : DrawnFrom s u := by
  obtain ⟨⟨v, fb, rfl⟩, h2, h3⟩ := h
  obtain ⟨⟨v', fb', rfl⟩, k2, k3⟩ := k
  refine ⟨⟨v', fb', rfl⟩, fun r hr => (k2 r hr).trans (h2 r hr), ?_⟩
  rcases k3 with k3 | k3
  · exact .inl k3
  · rw [k3]
    exact h3

theorem DrawnFrom.setFb (s : State) (p : Fin Config.fbCells) (b : BitVec 1) : DrawnFrom s (s.setFb p b) :=
  ⟨⟨s.v, (s.setFb p b).fb, rfl⟩, fun _ _ => rfl, .inr rfl⟩

theorem DrawnFrom.setFlag (s : State) : DrawnFrom s (s.setFlag 1) :=
  ⟨⟨(s.setFlag 1).v, s.fb, rfl⟩, fun r hr => by simp [hr], .inl (by simp)⟩

theorem DrawnFrom.hitCell (s : State) (p : Fin Config.fbCells) : DrawnFrom s (s.hitCell p) := by
  unfold State.hitCell
  simp only
  split
  · exact (DrawnFrom.setFlag s).trans (DrawnFrom.setFb _ _ _)
  · exact DrawnFrom.setFb _ _ _

theorem DrawnFrom.drawBit (x y : Reg) (row col : Nat) (s : State) : DrawnFrom s (s.drawBit x y row col) := by
  unfold State.drawBit
  split
  · exact DrawnFrom.hitCell s _
  · exact DrawnFrom.refl s

theorem DrawnFrom.foldl (f : State → Nat → State) (hf : ∀ t c, DrawnFrom t (f t c)) (l : List Nat)
    (s : State) : DrawnFrom s (l.foldl f s) := by
  induction l generalizing s with
  | nil => exact DrawnFrom.refl s
  | cons c l ih => exact (hf s c).trans (ih (f s c))

theorem DrawnFrom.drawRow (x y : Reg) (row : Nat) (b : Byte) (s : State) :
    DrawnFrom s (s.drawRow x y row b) := by
  apply DrawnFrom.foldl
  intro t c
  split
  · exact DrawnFrom.drawBit x y row c t
  · exact DrawnFrom.refl t

/-- A part of a draw leaves memory, the parameters and `I` as they are. -/
theorem DrawnFrom.keeps {s t : State} (h : DrawnFrom s t) :
    t.i = s.i ∧ t.params = s.params ∧ t.mem = s.mem ∧ ∀ a, t.byteAt a = s.byteAt a := by
  obtain ⟨⟨v, fb, rfl⟩, _, _⟩ := h
  exact ⟨rfl, rfl, rfl, fun _ => rfl⟩

/-- What toggling a visible cell does to every cell (R211 (b)). -/
theorem State.getFb_hitCell (s : State) (p q : Fin Config.fbCells) :
    (s.hitCell p).getFb q = if q = p then s.getFb p ^^^ 1 else s.getFb q := by
  have hf : ∀ r, (s.setFlag 1).getFb r = s.getFb r := fun _ => rfl
  unfold State.hitCell
  simp only
  split <;> simp only [State.getFb_setFb, hf]

/-- What toggling a visible cell does to the flag register: 1 on a collision, else untouched (R211). -/
theorem State.getV_flag_hitCell (s : State) (p : Fin Config.fbCells) :
    (s.hitCell p).getV flagReg = if s.getFb p = 1 then 1 else s.getV flagReg := by
  have hs : ∀ (t : State) b, (t.setFb p b).getV flagReg = t.getV flagReg := fun _ _ => rfl
  unfold State.hitCell
  simp only
  split <;> simp [hs]

/-- Two bits of one sprite never share a cell (R211 (f)). -/
theorem edgeCell_inj {m : DrawEdge} {ox oy c r c' r' : Nat} {p : Fin Config.fbCells}
    (h : edgeCell m (ox + c) (oy + r) = some p) (h' : edgeCell m (ox + c') (oy + r') = some p)
    (hc : c < 8) (hc' : c' < 8) (hr : r < 16) (hr' : r' < 16) : c = c' ∧ r = r' := by
  cases m with
  | wrap =>
    simp only [edgeCell, edgeWrap, Option.some.injEq] at h h'
    rw [← h'] at h
    have hv := congrArg Fin.val h
    simp [cellIndex] at hv
    omega
  | clip =>
    simp only [edgeCell, edgeClip] at h h'
    split at h <;> simp at h
    split at h' <;> simp at h'
    rw [← h'] at h
    have hv := congrArg Fin.val h
    simp [cellIndex] at hv
    rename_i h1 h2
    simp at h1 h2
    omega

/-- Some set bit of the byte, among the columns listed, falls on the cell `p` (R215, one row). -/
def rowCovers (m : DrawEdge) (b : Byte) (ox oy : Nat) (cols : List Nat) (p : Fin Config.fbCells) : Prop :=
  ∃ c ∈ cols, spriteBit b c = true ∧ edgeCell m (ox + c) oy = some p

theorem rowCovers_cons (m : DrawEdge) (b : Byte) (ox oy c : Nat) (cols : List Nat) (p : Fin Config.fbCells) :
    rowCovers m b ox oy (c :: cols) p ↔
      (spriteBit b c = true ∧ edgeCell m (ox + c) oy = some p) ∨ rowCovers m b ox oy cols p := by
  simp [rowCovers]

/-- The columns `cols` of one row, the position registers not the flag register: the cells of its set
bits are complemented, all others stay, and the flag register is 1 on a collision, else untouched. -/
theorem State.drawCols_spec (x y : Reg) (hx : x ≠ flagReg) (hy : y ≠ flagReg) (row : Nat) (hrow : row < 16)
    (b : Byte) (cols : List Nat) (hn : cols.Nodup) (h8 : ∀ c ∈ cols, c < 8) (s t : State)
    (ht : t = cols.foldl (fun t col => if spriteBit b col then t.drawBit x y row col else t) s) :
    let cov := rowCovers s.params.drawEdge b (s.getV x).toNat ((s.getV y).toNat + row) cols
    (∀ p, cov p → t.getFb p = s.getFb p ^^^ 1) ∧ (∀ p, ¬ cov p → t.getFb p = s.getFb p) ∧
    ((∃ p, cov p ∧ s.getFb p = 1) → t.getV flagReg = 1) ∧
    ((¬ ∃ p, cov p ∧ s.getFb p = 1) → t.getV flagReg = s.getV flagReg) := by
  induction cols generalizing s with
  | nil => simp [ht, rowCovers]
  | cons c cols ih =>
    rw [List.foldl_cons] at ht
    obtain ⟨hc, hn'⟩ := List.nodup_cons.1 hn
    have h8' : ∀ c ∈ cols, c < 8 := fun c hc => h8 c (by simp [hc])
    simp only [rowCovers_cons]
    by_cases hb : spriteBit b c = true
    · rw [if_pos hb] at ht
      have hd := DrawnFrom.drawBit x y row c s
      obtain ⟨i1, i2, i3, i4⟩ := ih hn' h8' _ ht
      rw [hd.2.1 x hx, hd.2.1 y hy, hd.keeps.2.1] at i1 i2 i3 i4
      cases he : edgeCell s.params.drawEdge ((s.getV x).toNat + c) ((s.getV y).toNat + row) with
      | none =>
        have hs : s.drawBit x y row c = s := by simp [State.drawBit, he]
        rw [hs] at i1 i2 i3 i4
        simp only [reduceCtorEq, and_false, false_or]
        exact ⟨i1, i2, i3, i4⟩
      | some q =>
        have hs : s.drawBit x y row c = s.hitCell q := by simp [State.drawBit, he]
        have hq : ∀ p, rowCovers s.params.drawEdge b (s.getV x).toNat ((s.getV y).toNat + row) cols p →
            p ≠ q := by
          rintro p ⟨c', h1, -, h3⟩ rfl
          obtain ⟨rfl, -⟩ := edgeCell_inj he h3 (h8 c (by simp)) (h8' c' h1) hrow hrow
          exact hc h1
        rw [hs] at i1 i2 i3 i4
        simp only [State.getFb_hitCell, State.getV_flag_hitCell] at i1 i2 i3 i4
        simp only [hb, true_and, Option.some.injEq]
        refine ⟨?_, ?_, ?_, ?_⟩
        · rintro p (rfl | h)
          · rw [i2 q (fun h => hq q h rfl), if_pos rfl]
          · rw [i1 p h, if_neg (hq p h)]
        · intro p h
          rw [i2 p (fun h' => h (.inr h')), if_neg (fun e => h (.inl e.symm))]
        · rintro ⟨p, rfl | h, hp⟩
          · by_cases hex : ∃ p, rowCovers s.params.drawEdge b (s.getV x).toNat
                ((s.getV y).toNat + row) cols p ∧ (if p = q then s.getFb q ^^^ 1 else s.getFb p) = 1
            · exact i3 hex
            · rw [i4 hex, if_pos hp]
          · exact i3 ⟨p, h, by rw [if_neg (hq p h)]; exact hp⟩
        · intro h
          rw [i4 (by
            rintro ⟨p, h2, h3⟩
            rw [if_neg (hq p h2)] at h3
            exact h ⟨p, .inr h2, h3⟩), if_neg fun h' => h ⟨q, .inl rfl, h'⟩]
    · rw [if_neg hb] at ht
      simpa [hb] using ih hn' h8' s ht

/-- Rows whose bytes all lie inside the memory are drawn. -/
theorem State.drawRows_fits (x y : Reg) (left row : Nat) (s : State) (h : s.i.toNat + row + left ≤ 4096) :
    ∃ t, State.drawRows x y left row s = .ok t ∧ DrawnFrom s t := by
  induction left generalizing row s with
  | zero => exact ⟨s, rfl, DrawnFrom.refl s⟩
  | succ left ih =>
    have hd := DrawnFrom.drawRow x y row (s.byteAt (s.addr row)) s
    obtain ⟨t, ht, hst⟩ := ih (row + 1) (s.drawRow x y row (s.byteAt (s.addr row))) (by rw [hd.keeps.1]; omega)
    refine ⟨t, ?_, hd.trans hst⟩
    have ha : s.addr row < 4096 := by unfold State.addr; omega
    simp only [State.drawRows, State.readByte_inside s _ ha]
    exact ht

/-- The rows of a draw that do not all lie inside the memory fault at the first address outside. -/
theorem State.drawRows_faults (x y : Reg) (left row : Nat) (s : State) (hl : 0 < left)
    (h : 4096 < s.i.toNat + row + left) :
    State.drawRows x y left row s = .error (.dataRange (max (s.i.toNat + row) 4096)) := by
  induction left generalizing row s with
  | zero => omega
  | succ left ih =>
    have hd := DrawnFrom.drawRow x y row (s.byteAt (s.addr row)) s
    by_cases ha : s.i.toNat + row < 4096
    · simp only [State.drawRows, State.readByte_inside s (s.addr row) ha]
      rw [ih (row + 1) _ (by omega) (by rw [hd.keeps.1]; omega), hd.keeps.1]
      have hmax : max (s.i.toNat + (row + 1)) 4096 = max (s.i.toNat + row) 4096 := by omega
      exact congrArg (fun n => Except.error (Fault.dataRange n)) hmax
    · simp only [State.drawRows, State.readByte_outside s (s.addr row) (by unfold State.addr; omega)]
      have hmax : s.addr row = max (s.i.toNat + row) 4096 := by unfold State.addr; omega
      exact congrArg (fun n => Except.error (Fault.dataRange n)) hmax

end Sys2Proof.Machine
end

