-- ==== Sys2Proof/Laws/PerInstr.lean ====
section
/-! SUPPORT. A statement for all instructions, one lemma per constructor: the word of an instruction has
its row's opcode class in bits 15..12 (spec/30_encoding.md R91, R92). -/

namespace Sys2Proof.Laws.EncodedClass

/-- The opcode class of an instruction: the first digit of its pattern (spec/30_encoding.md R95). -/
def opClass : Instr → Nat
  | .nop => 0x0
  | .cls => 0x0
  | .ret => 0x0
  | .jp _ => 0x1
  | .call _ => 0x2
  | .seImm _ _ => 0x3
  | .sneImm _ _ => 0x4
  | .seReg _ _ => 0x5
  | .ldImm _ _ => 0x6
  | .addImm _ _ => 0x7
  | .ldReg _ _ => 0x8
  | .orReg _ _ => 0x8
  | .andReg _ _ => 0x8
  | .xorReg _ _ => 0x8
  | .addReg _ _ => 0x8
  | .subReg _ _ => 0x8
  | .shr _ _ => 0x8
  | .subn _ _ => 0x8
  | .shl _ _ => 0x8
  | .sneReg _ _ => 0x9
  | .ldI _ => 0xA
  | .rnd _ _ => 0xC
  | .drw _ _ _ => 0xD
  | .skp _ => 0xE
  | .sknp _ => 0xE
  | .ldVxDt _ => 0xF
  | .ldVxK _ => 0xF
  | .ldDtVx _ => 0xF
  | .ldStVx _ => 0xF
  | .addI _ => 0xF
  | .ldF _ => 0xF
  | .ldB _ => 0xF
  | .stRegs _ => 0xF
  | .ldRegs _ => 0xF

def Statement (i : Instr) : Prop := fieldOp (encode i) = opClass i

theorem fieldOp_wordA (op : Nat) (nnn : Word) (h : op < 16) : fieldOp (wordA op nnn) = op := by
  simp only [fieldOp, wordA, BitVec.toNat_ofNat]
  omega

theorem fieldOp_wordXK (op : Nat) (x : Reg) (kk : Byte) (h : op < 16) : fieldOp (wordXK op x kk) = op := by
  have hx : x.val < 16 := x.isLt
  simp only [fieldOp, wordXK, BitVec.toNat_ofNat]
  omega

theorem fieldOp_wordXYN (op : Nat) (x y : Reg) (n : Fin 16) (h : op < 16) :
    fieldOp (wordXYN op x y n) = op := by
  have hx : x.val < 16 := x.isLt
  have hy : y.val < 16 := y.isLt
  simp only [fieldOp, wordXYN, BitVec.toNat_ofNat]
  omega

theorem fieldOp_wordX (op : Nat) (x : Reg) (low : Nat) (h : op < 16) (hl : low < 256) :
    fieldOp (wordX op x low) = op := by
  have hx : x.val < 16 := x.isLt
  simp only [fieldOp, wordX, BitVec.toNat_ofNat]
  omega

theorem nop : Statement .nop := rfl
theorem cls : Statement .cls := rfl
theorem ret : Statement .ret := rfl
theorem jp (nnn : Word) : Statement (.jp nnn) := fieldOp_wordA _ _ (by decide)
theorem call (nnn : Word) : Statement (.call nnn) := fieldOp_wordA _ _ (by decide)
theorem seImm (x : Reg) (kk : Byte) : Statement (.seImm x kk) := fieldOp_wordXK _ _ _ (by decide)
theorem sneImm (x : Reg) (kk : Byte) : Statement (.sneImm x kk) := fieldOp_wordXK _ _ _ (by decide)
theorem seReg (x y : Reg) : Statement (.seReg x y) := fieldOp_wordXYN _ _ _ _ (by decide)
theorem ldImm (x : Reg) (kk : Byte) : Statement (.ldImm x kk) := fieldOp_wordXK _ _ _ (by decide)
theorem addImm (x : Reg) (kk : Byte) : Statement (.addImm x kk) := fieldOp_wordXK _ _ _ (by decide)
theorem ldReg (x y : Reg) : Statement (.ldReg x y) := fieldOp_wordXYN _ _ _ _ (by decide)
theorem orReg (x y : Reg) : Statement (.orReg x y) := fieldOp_wordXYN _ _ _ _ (by decide)
theorem andReg (x y : Reg) : Statement (.andReg x y) := fieldOp_wordXYN _ _ _ _ (by decide)
theorem xorReg (x y : Reg) : Statement (.xorReg x y) := fieldOp_wordXYN _ _ _ _ (by decide)
theorem addReg (x y : Reg) : Statement (.addReg x y) := fieldOp_wordXYN _ _ _ _ (by decide)
theorem subReg (x y : Reg) : Statement (.subReg x y) := fieldOp_wordXYN _ _ _ _ (by decide)
theorem shr (x y : Reg) : Statement (.shr x y) := fieldOp_wordXYN _ _ _ _ (by decide)
theorem subn (x y : Reg) : Statement (.subn x y) := fieldOp_wordXYN _ _ _ _ (by decide)
theorem shl (x y : Reg) : Statement (.shl x y) := fieldOp_wordXYN _ _ _ _ (by decide)
theorem sneReg (x y : Reg) : Statement (.sneReg x y) := fieldOp_wordXYN _ _ _ _ (by decide)
theorem ldI (nnn : Word) : Statement (.ldI nnn) := fieldOp_wordA _ _ (by decide)
theorem rnd (x : Reg) (kk : Byte) : Statement (.rnd x kk) := fieldOp_wordXK _ _ _ (by decide)
theorem drw (x y : Reg) (n : Fin 16) : Statement (.drw x y n) := fieldOp_wordXYN _ _ _ _ (by decide)
theorem skp (x : Reg) : Statement (.skp x) := fieldOp_wordX _ _ _ (by decide) (by decide)
theorem sknp (x : Reg) : Statement (.sknp x) := fieldOp_wordX _ _ _ (by decide) (by decide)
theorem ldVxDt (x : Reg) : Statement (.ldVxDt x) := fieldOp_wordX _ _ _ (by decide) (by decide)
theorem ldVxK (x : Reg) : Statement (.ldVxK x) := fieldOp_wordX _ _ _ (by decide) (by decide)
theorem ldDtVx (x : Reg) : Statement (.ldDtVx x) := fieldOp_wordX _ _ _ (by decide) (by decide)
theorem ldStVx (x : Reg) : Statement (.ldStVx x) := fieldOp_wordX _ _ _ (by decide) (by decide)
theorem addI (x : Reg) : Statement (.addI x) := fieldOp_wordX _ _ _ (by decide) (by decide)
theorem ldF (x : Reg) : Statement (.ldF x) := fieldOp_wordX _ _ _ (by decide) (by decide)
theorem ldB (x : Reg) : Statement (.ldB x) := fieldOp_wordX _ _ _ (by decide) (by decide)
theorem stRegs (x : Reg) : Statement (.stRegs x) := fieldOp_wordX _ _ _ (by decide) (by decide)
theorem ldRegs (x : Reg) : Statement (.ldRegs x) := fieldOp_wordX _ _ _ (by decide) (by decide)

end Sys2Proof.Laws.EncodedClass
end

