-- ==== Sys2Proof/Laws/Encoding.lean ====
section
/-! SUPPORT. The fields of the words of each format (spec/30_encoding.md R91, R92). -/

namespace Sys2Proof

theorem toNat_wordA (op : Nat) (nnn : Word) (h : op < 16) :
    (wordA op nnn).toNat = op * 4096 + nnn.toNat % 4096 := by
  simp only [wordA, BitVec.toNat_ofNat]
  omega

theorem toNat_wordXK (op : Nat) (x : Reg) (kk : Byte) (h : op < 16) :
    (wordXK op x kk).toNat = op * 4096 + x.val * 256 + kk.toNat := by
  have hx : x.val < 16 := x.isLt
  simp only [wordXK, BitVec.toNat_ofNat]
  omega

theorem toNat_wordXYN (op : Nat) (x y : Reg) (n : Fin 16) (h : op < 16) :
    (wordXYN op x y n).toNat = op * 4096 + x.val * 256 + y.val * 16 + n.val := by
  have hx : x.val < 16 := x.isLt
  have hy : y.val < 16 := y.isLt
  simp only [wordXYN, BitVec.toNat_ofNat]
  omega

theorem toNat_wordX (op : Nat) (x : Reg) (low : Nat) (h : op < 16) (hl : low < 256) :
    (wordX op x low).toNat = op * 4096 + x.val * 256 + low := by
  have hx : x.val < 16 := x.isLt
  simp only [wordX, BitVec.toNat_ofNat]
  omega

theorem fieldNnn_wordA (op : Nat) (nnn : Word) (h : op < 16) (hn : nnn.toNat < 4096) :
    fieldNnn (wordA op nnn) = nnn := by
  apply BitVec.eq_of_toNat_eq
  rw [fieldNnn, toNat_wordA op nnn h, BitVec.toNat_ofNat]
  omega

theorem fieldX_wordXK (op : Nat) (x : Reg) (kk : Byte) (h : op < 16) : fieldX (wordXK op x kk) = x := by
  have hx : x.val < 16 := x.isLt
  apply Fin.ext
  simp only [fieldX, toNat_wordXK op x kk h]
  omega

theorem fieldKk_wordXK (op : Nat) (x : Reg) (kk : Byte) (h : op < 16) : fieldKk (wordXK op x kk) = kk := by
  apply BitVec.eq_of_toNat_eq
  rw [fieldKk, toNat_wordXK op x kk h, BitVec.toNat_ofNat]
  omega

theorem fieldX_wordXYN (op : Nat) (x y : Reg) (n : Fin 16) (h : op < 16) :
    fieldX (wordXYN op x y n) = x := by
  have hx : x.val < 16 := x.isLt
  have hy : y.val < 16 := y.isLt
  apply Fin.ext
  simp only [fieldX, toNat_wordXYN op x y n h]
  omega

theorem fieldY_wordXYN (op : Nat) (x y : Reg) (n : Fin 16) (h : op < 16) :
    fieldY (wordXYN op x y n) = y := by
  have hx : x.val < 16 := x.isLt
  have hy : y.val < 16 := y.isLt
  apply Fin.ext
  simp only [fieldY, toNat_wordXYN op x y n h]
  omega

theorem fieldN_wordXYN (op : Nat) (x y : Reg) (n : Fin 16) (h : op < 16) :
    fieldN (wordXYN op x y n) = n := by
  apply Fin.ext
  simp only [fieldN, toNat_wordXYN op x y n h]
  omega

theorem fieldX_wordX (op : Nat) (x : Reg) (low : Nat) (h : op < 16) (hl : low < 256) :
    fieldX (wordX op x low) = x := by
  have hx : x.val < 16 := x.isLt
  apply Fin.ext
  simp only [fieldX, toNat_wordX op x low h hl]
  omega

theorem fieldLow_wordX (op : Nat) (x : Reg) (low : Nat) (h : op < 16) (hl : low < 256) :
    fieldLow (wordX op x low) = low := by
  rw [fieldLow, toNat_wordX op x low h hl]
  omega

/-- A word decodes to an instruction, or is named as unrecognised. -/
theorem decodeWord_instr (w : Word) (i : Instr) : decodeWord w = .instr i ↔ decodeInstr w = some i := by
  unfold decodeWord
  cases decodeInstr w <;> simp

theorem decodeWord_unrecognised (w u : Word) :
    decodeWord w = .unrecognised u ↔ decodeInstr w = none ∧ u = w := by
  unfold decodeWord
  cases decodeInstr w <;> simp [eq_comm]

end Sys2Proof
end

