-- ==== Sys2Proof/Laws/Step.lean ====
section
/-! SUPPORT. What one step can do, said once, and the small lemmas of frames. -/

namespace Sys2Proof.Machine

theorem ChangesOnly.refl (may : Item → Prop) (s : State) : ChangesOnly may s s := by
  intro it _
  cases it <;> rfl

theorem ChangesOnly.mono {may may' : Item → Prop} {s t : State} (h : ChangesOnly may s t)
    (hm : ∀ it, may it → may' it) : ChangesOnly may' s t :=
  fun it hit => h it fun hmay => hit (hm it hmay)

theorem ChangesOnly.trans {may : Item → Prop} {s t u : State} (h : ChangesOnly may s t)
    (k : ChangesOnly may t u) : ChangesOnly may s u := by
  intro it hit
  have h1 := h it hit
  have h2 := k it hit
  cases it <;> exact Eq.trans h2 h1

/-- A fetch answers a word exactly when both its bytes are inside the memory. -/
theorem State.fetch_inside (s : State) (h : s.pc.toNat ≤ 4094) :
    s.fetch = .ok (wordOfBytes (s.byteAt s.pc.toNat) (s.byteAt (s.pc.toNat + 1))) := by
  have h' : s.pc.toNat + 1 < Config.memSize := by simp; omega
  simp only [State.fetch, if_pos h']

theorem State.fetch_outside (s : State) (h : 4094 < s.pc.toNat) : s.fetch = .error (.fetchRange s.pc) := by
  have h' : ¬ s.pc.toNat + 1 < Config.memSize := by simp; omega
  simp only [State.fetch, if_neg h']

theorem State.fetch_ok {s : State} {w : Word} (h : s.fetch = .ok w) : s.pc.toNat ≤ 4094 := by
  by_cases hp : s.pc.toNat ≤ 4094
  · exact hp
  · rw [State.fetch_outside s (by omega)] at h
    cases h

theorem onNext_next {o : Host.Outcome State Fault Refusal} {f : State → State} {t : State} :
    onNext o f = .next t ↔ ∃ u, o = .next u ∧ t = f u := by
  cases o <;> simp [onNext, eq_comm]

/-- Every completed step: a word was fetched, its execute phase completed, and the step ended with the
timer tick. -/
theorem step_next {s t : State} :
    step s = .next t ↔
      ∃ w u, s.fetch = .ok w ∧ execDecoded (decodeWord w) s.beginStep = .next u ∧ t = u.endStep := by
  unfold step
  cases hf : s.fetch with
  | error f => simp
  | ok w => simp [onNext_next]

/-- Every faulted step: the fetch faulted, or the execute phase did. -/
theorem step_fault {s : State} {f : Fault} :
    step s = .fault f ↔
      s.fetch = .error f ∨ ∃ w, s.fetch = .ok w ∧ execDecoded (decodeWord w) s.beginStep = .fault f := by
  unfold step
  cases hf : s.fetch with
  | error g => simp
  | ok w =>
    cases he : execDecoded (decodeWord w) s.beginStep <;> simp [onNext, he]

/-- A step that fetches a word runs it. -/
theorem step_of_fetch {s : State} {w : Word} (h : s.fetch = .ok w) :
    step s = onNext (execDecoded (decodeWord w) s.beginStep) State.endStep := by
  simp only [step, h]

@[simp] theorem State.beginStep_getV (s : State) (r : Reg) : s.beginStep.getV r = s.getV r := rfl

@[simp] theorem State.beginStep_pc (s : State) : s.beginStep.pc = s.pc + 2 := rfl

@[simp] theorem State.beginStep_i (s : State) : s.beginStep.i = s.i := rfl

@[simp] theorem State.beginStep_byteAt (s : State) (a : Nat) : s.beginStep.byteAt a = s.byteAt a := rfl

@[simp] theorem State.endStep_getV (s : State) (r : Reg) : s.endStep.getV r = s.getV r := rfl

@[simp] theorem State.endStep_pc (s : State) : s.endStep.pc = s.pc := rfl

@[simp] theorem State.endStep_dt (s : State) : s.endStep.dt = tickDown s.dt := rfl

@[simp] theorem State.endStep_st (s : State) : s.endStep.st = tickDown s.st := rfl

@[simp] theorem State.endStep_byteAt (s : State) (a : Nat) : s.endStep.byteAt a = s.byteAt a := rfl

end Sys2Proof.Machine
end

