-- ==== Sys2Proof/Laws/Exec.lean ====
section
/-! SUPPORT. What the instructions over memory and the stack can do, said once: each lemma gives every
outcome of an instruction with the condition it has. -/

namespace Sys2Proof.Machine

/-- A push changes nothing but `sp` and stack entries. -/
theorem State.pushPc_frame (s : State) :
    ChangesOnly (fun it => it = .sp ∨ ∃ k, it = .stackEntry k) s s.pushPc := by
  rcases s.pushPc_cases with ⟨_, h⟩ | ⟨_, h⟩ <;> rw [h]
  · intro it hit
    cases it <;> first | rfl | simp at hit
  · exact ChangesOnly.refl _ _

/-- A pop changes nothing but `sp` and `pc`. -/
theorem State.popPc_frame (s : State) : ChangesOnly (fun it => it = .sp ∨ it = .pc) s s.popPc := by
  rcases s.popPc_cases with ⟨_, _, _, h⟩ | ⟨_, h⟩ <;> rw [h]
  · intro it hit
    cases it <;> first | rfl | simp at hit
  · exact ChangesOnly.refl _ _

/-- The two outcomes of a store of bytes at `I` on: it fits and changes memory alone, or it does not
and names the first address outside. -/
theorem storeAtI_cases (s : State) (bs : List Byte) (hne : bs ≠ []) :
    (s.i.toNat + bs.length ≤ 4096 ∧
      ∃ m, finish (s.storeBytes (s.addr 0) bs) = .next { s with mem := m } ∧
        (∀ b, ({ s with mem := m } : State).byteAt b =
          if h : s.addr 0 ≤ b ∧ b - s.addr 0 < bs.length then bs[b - s.addr 0]'h.2 else s.byteAt b) ∧
        (Memory.wf s.params.font s.mem → Memory.wf s.params.font m)) ∨
    (4096 < s.i.toNat + bs.length ∧
      finish (s.storeBytes (s.addr 0) bs) = .fault (.dataRange s.firstOutside)) := by
  by_cases h : s.i.toNat + bs.length ≤ 4096
  · obtain ⟨m, hm, hb, hw⟩ := State.storeBytes_fits bs s (s.addr 0) h
    exact .inl ⟨h, m, by rw [hm]; rfl, hb, hw⟩
  · refine .inr ⟨by omega, ?_⟩
    rw [State.storeBytes_faults bs s (s.addr 0) hne (by unfold State.addr; omega)]
    rfl

theorem bcdDigits_ne_nil (b : RegVal) : bcdDigits b ≠ [] := by simp [bcdDigits]

theorem valuesUpTo_ne_nil (s : State) (x : Reg) : s.valuesUpTo x ≠ [] := by
  intro h
  have hl := length_valuesUpTo s x
  rw [h] at hl
  simp at hl

theorem regsUpTo_ne_nil (x : Reg) : regsUpTo x ≠ [] := by
  intro h
  have hl := length_regsUpTo x
  rw [h] at hl
  simp at hl

/-- The two outcomes of `Fx65` (spec/43_index_memory.md R195). -/
theorem execLdRegs_cases (x : Reg) (s : State) :
    (s.i.toNat + x.val ≤ 4095 ∧
      ∃ v, execLdRegs x s = .next { s with v := v } ∧
        ∀ r, ({ s with v := v } : State).getV r = if r ≤ x then s.byteAt (s.addr r.val) else s.getV r) ∨
    (4095 < s.i.toNat + x.val ∧ execLdRegs x s = .fault (.dataRange s.firstOutside)) := by
  by_cases h : s.i.toNat + x.val ≤ 4095
  · obtain ⟨v, hv, hg⟩ := State.loadRegs_fits (regsUpTo x) s (fun r hr => by
      have hle : r.val ≤ x.val := (mem_regsUpTo x r).1 hr
      omega)
    exact .inl ⟨h, v, by unfold execLdRegs; rw [hv]; rfl, by simpa [mem_regsUpTo, State.addr] using hg⟩
  · refine .inr ⟨by omega, ?_⟩
    unfold execLdRegs
    rw [State.loadRegs_faults (regsUpTo x) s 0 (regsUpTo_ne_nil x)
      (fun j hj => by simp [getElem_regsUpTo]) (by simp; omega)]
    rfl

/-- The two outcomes of `Dxyn` (spec/44_display.md R211). -/
theorem execDrw_cases (x y : Reg) (n : Fin 16) (s : State) :
    ((n.val = 0 ∨ s.i.toNat + (n.val - 1) ≤ 4095) ∧
      ∃ t, execDrw x y n s = .next t ∧
        State.drawRows x y n.val 0 (s.setFlag 0).requestDraw = .ok t ∧
        DrawnFrom (s.setFlag 0).requestDraw t) ∨
    (0 < n.val ∧ 4095 < s.i.toNat + (n.val - 1) ∧
      execDrw x y n s = .fault (.dataRange s.firstOutside)) := by
  unfold execDrw
  by_cases h0 : n.val = 0
  · exact .inl ⟨.inl h0, (s.setFlag 0).requestDraw, by rw [h0]; rfl, by rw [h0]; rfl, DrawnFrom.refl _⟩
  by_cases h : s.i.toNat + (n.val - 1) ≤ 4095
  · have hi : (s.setFlag 0).requestDraw.i = s.i := rfl
    obtain ⟨t, ht, hd⟩ := State.drawRows_fits x y n.val 0 (s.setFlag 0).requestDraw (by rw [hi]; omega)
    exact .inl ⟨.inr h, t, by rw [ht]; rfl, ht, hd⟩
  · have hi : (s.setFlag 0).requestDraw.i = s.i := rfl
    refine .inr ⟨by omega, by omega, ?_⟩
    rw [State.drawRows_faults x y n.val 0 (s.setFlag 0).requestDraw (by omega) (by rw [hi]; omega), hi]
    rfl

end Sys2Proof.Machine
end

