-- ==== Sys2Proof/Tests/Slice0.lean ====
section
/-! SUPPORT. The model's own tests: ill-formed terms refused, words written out from the spec's
encodings, the spec's test vectors (spec/95_test_vectors.md, named by their ids), and a witness for the
hypotheses of every obligation that has some. -/

namespace Sys2Proof.Tests

open Sys2Proof.Machine

/-! ### Well-formedness: each check refuses an ill-formed term (spec/30_encoding.md R91, R93) -/

theorem test_illformed_jp : (Instr.jp 0x1000).wellFormed = false := by decide

theorem test_illformed_call : (Instr.call 0xFFFF).wellFormed = false := by decide

theorem test_illformed_ldI : (Instr.ldI 0x1000).wellFormed = false := by decide

theorem test_wellformed_bounds :
    (Instr.jp 0xFFF).wellFormed = true ∧ (Instr.call 0).wellFormed = true ∧
    (Instr.ldI 0xFFF).wellFormed = true ∧ (Instr.drw 15 15 15).wellFormed = true := by decide

/-! ### Decoding: every constructor, from the bits of its row (spec/30_encoding.md R92, R95) -/

theorem test_decode_flow :
    decodeInstr 0b0000_0000_0000_0000 = some .nop ∧ decodeInstr 0b0000_0000_1110_1110 = some .ret ∧
    decodeInstr 0b0001_0010_0011_0100 = some (.jp 0x234) ∧
    decodeInstr 0b0010_1010_1011_1100 = some (.call 0xABC) ∧
    decodeInstr 0b0011_0101_1010_0001 = some (.seImm 5 0xA1) ∧
    decodeInstr 0b0100_0110_0001_1111 = some (.sneImm 6 0x1F) ∧
    decodeInstr 0b0101_0010_0011_0000 = some (.seReg 2 3) ∧
    decodeInstr 0b1001_1100_0001_0000 = some (.sneReg 12 1) := by decide

theorem test_decode_alu :
    decodeInstr 0b0110_1010_0111_1111 = some (.ldImm 10 0x7F) ∧
    decodeInstr 0b0111_1111_0000_0001 = some (.addImm 15 1) ∧
    decodeInstr 0b1000_0001_0010_0000 = some (.ldReg 1 2) ∧
    decodeInstr 0b1000_0010_0001_0001 = some (.orReg 2 1) ∧
    decodeInstr 0b1000_0011_0100_0010 = some (.andReg 3 4) ∧
    decodeInstr 0b1000_0101_0110_0011 = some (.xorReg 5 6) ∧
    decodeInstr 0b1000_0111_1000_0100 = some (.addReg 7 8) ∧
    decodeInstr 0b1000_1001_1010_0101 = some (.subReg 9 10) ∧
    decodeInstr 0b1000_1011_1100_0110 = some (.shr 11 12) ∧
    decodeInstr 0b1000_1101_1110_0111 = some (.subn 13 14) ∧
    decodeInstr 0b1000_1111_0000_1110 = some (.shl 15 0) ∧
    decodeInstr 0b1100_0001_0011_1100 = some (.rnd 1 0x3C) := by decide

theorem test_decode_display_and_keys :
    decodeInstr 0b0000_0000_1110_0000 = some .cls ∧
    decodeInstr 0b1101_0001_0010_1111 = some (.drw 1 2 15) ∧
    decodeInstr 0b1110_0111_1001_1110 = some (.skp 7) ∧
    decodeInstr 0b1110_0111_1010_0001 = some (.sknp 7) ∧
    decodeInstr 0b1111_0011_0000_1010 = some (.ldVxK 3) ∧
    decodeInstr 0b1111_0001_0000_0111 = some (.ldVxDt 1) ∧
    decodeInstr 0b1111_0010_0001_0101 = some (.ldDtVx 2) ∧
    decodeInstr 0b1111_0100_0001_1000 = some (.ldStVx 4) := by decide

theorem test_decode_index_and_memory :
    decodeInstr 0b1010_0001_0010_0011 = some (.ldI 0x123) ∧
    decodeInstr 0b1111_0101_0001_1110 = some (.addI 5) ∧
    decodeInstr 0b1111_0110_0010_1001 = some (.ldF 6) ∧
    decodeInstr 0b1111_1000_0011_0011 = some (.ldB 8) ∧
    decodeInstr 0b1111_1001_0101_0101 = some (.stRegs 9) ∧
    decodeInstr 0b1111_1111_0110_0101 = some (.ldRegs 15) := by decide

/-- E2 to E10: words that match no row, one of each class of R97. -/
theorem test_decode_unrecognised :
    decodeWord 0x0123 = .unrecognised 0x0123 ∧ decodeWord 0x00E1 = .unrecognised 0x00E1 ∧
    decodeWord 0x5231 = .unrecognised 0x5231 ∧ decodeWord 0x8018 = .unrecognised 0x8018 ∧
    decodeWord 0x9235 = .unrecognised 0x9235 ∧ decodeWord 0xB123 = .unrecognised 0xB123 ∧
    decodeWord 0xE0FF = .unrecognised 0xE0FF ∧ decodeWord 0xF0FF = .unrecognised 0xF0FF := by decide

/-- E2: the fields of 0xD12F. -/
theorem test_fields :
    fieldOp 0xD12F = 0xD ∧ fieldX 0xD12F = 1 ∧ fieldY 0xD12F = 2 ∧ fieldN 0xD12F = 15 ∧
    fieldKk 0xD12F = 0x2F ∧ fieldNnn 0xD12F = 0x12F := by decide

/-- The first byte of a word is the more significant one (spec/20_memory.md R62); one byte is no word. -/
theorem test_decode_bytes :
    decodeBytes [0x12, 0x34, 0x56] = some (.instr (.jp 0x234), [0x56]) ∧ decodeBytes [0x12] = none ∧
    decodeTableWord 16 0x1234 = some (.jp 0x234) ∧ decodeTableWord 16 0xB123 = none := by decide

/-! ### One step (spec/95_test_vectors.md section 3) -/

/-- The word `w` where the next step fetches it. -/
def given (w : Nat) (s : State) : State := s.withFetchWord 16 w

/-- The step answers a next state of which `p` holds. -/
def after (s : State) (p : State → Bool) : Bool :=
  match step s with
  | .next t => p t
  | .fault _ => false
  | .refused _ => false

/-- The fault the step ends in, if it does. -/
def faultOf (s : State) : Option Fault :=
  match step s with
  | .next _ => none
  | .fault f => some f
  | .refused _ => none

/-- The state after reset with two registers set. -/
def regs2 (x : Reg) (a : Byte) (y : Reg) (b : Byte) : State := (State.reset.setV x a).setV y b

/-- The state after reset with `I` set and bytes stored from there on. -/
def data (a : Nat) (bs : List Byte) : State := (State.reset.setI (BitVec.ofNat 16 a)).copyBytes a bs

/-- The state after reset with keys and a random byte supplied for the next step. -/
def input (keys : BitVec 16) (rnd : Byte) : State := State.reset.supply ⟨keys, rnd⟩

/-- The cell of a number below 2048. -/
def cell (k : Nat) : Fin Config.fbCells := Fin.ofNat _ k

theorem test_E1 : after (given 0x1234 State.reset) (fun t => t.pc = 0x234) = true := by decide

theorem test_E3 : after (given 0xB123 State.reset) (fun t => t.warning = some 0xB123 && t.pc = 0x202) = true := by
  decide

theorem test_E11 : after (given 0xB000 ((State.reset.setDt 2).setSt 2))
    (fun t => t.warning = some 0xB000 && t.dt = 1 && t.st = 1 && t.soundRequested && t.soundPulse) = true := by
  decide

theorem test_E12 : after (given 0x0000 State.reset) (fun t => t.pc = 0x202 && t.warning.isNone) = true := by
  decide

theorem test_E13 : faultOf (State.reset.setPc 4095) = some (.fetchRange 4095) := by decide

theorem test_E14 : faultOf (State.reset.setPc 4096) = some (.fetchRange 4096) := by decide

theorem test_E15 : after (given 0x6007 (State.reset.setPc 0x201)) (fun t => t.getV 0 = 7 && t.pc = 0x203) = true := by
  decide

/-- `stack[0] = 0x206`, `stack[1] = 0x30A`, `sp = 2`. -/
def depth2 : State := ((State.reset.setPc 0x206).pushPc.setPc 0x30A).pushPc.setPc 0x200

/-- `stack[k] = 0x100 + 2k`, `sp = 32`. -/
def depth32 : State :=
  { State.reset with stack := Vector.ofFn fun k => BitVec.ofNat 16 (0x100 + 2 * k.val), sp := 32 }

theorem test_F1 : after (given 0x00EE State.reset)
    (fun t => t.pc = 0x202 && t.sp = 0 && t.warning.isNone) = true := by decide

theorem test_F2 : after (given 0x00EE depth2) (fun t => t.pc = 0x30A && t.sp = 1 && t.stack[1] = 0x30A) = true := by
  decide

theorem test_F4 : after (given 0x1201 State.reset) (fun t => t.pc = 0x201) = true := by decide

theorem test_F5 : after (given 0x2ABC (State.reset.setPc 0x300))
    (fun t => t.stack[0] = 0x302 && t.sp = 1 && t.pc = 0xABC) = true := by decide

theorem test_F6 : after (given 0x2ABC depth32)
    (fun t => t.pc = 0xABC && t.sp = 32 && t.stack[31] = 0x13E && t.warning.isNone) = true := by decide

theorem test_F9 : after (given 0x3005 (State.reset.setV 0 5)) (fun t => t.pc = 0x204) = true := by decide

theorem test_F17 : after (given 0x3000 (State.reset.setPc 4094)) (fun t => t.pc = 4098) = true := by decide

theorem test_F11 : after (given 0x4005 (State.reset.setV 0 5)) (fun t => t.pc = 0x202) = true := by decide

theorem test_F12 : after (given 0x4006 (State.reset.setV 0 5)) (fun t => t.pc = 0x204) = true := by decide

theorem test_F13 : after (given 0x5230 (regs2 2 7 3 7)) (fun t => t.pc = 0x204) = true := by decide

theorem test_F15 : after (given 0x9230 (regs2 2 7 3 8)) (fun t => t.pc = 0x204) = true := by decide

theorem test_F16 : after (given 0x9220 (State.reset.setV 2 9)) (fun t => t.pc = 0x202) = true := by decide

theorem test_A1 : after (given 0x6A7F State.reset) (fun t => t.getV 10 = 0x7F) = true := by decide

theorem test_A2 : after (given 0x70FF (State.reset.setV 0 2)) (fun t => t.getV 0 = 1 && t.getV 15 = 0) = true := by
  decide

theorem test_A3 : after (given 0x7F01 (State.reset.setV 15 255)) (fun t => t.getV 15 = 0) = true := by decide

theorem test_A4 : after (given 0x8010 (State.reset.setV 1 0x3C)) (fun t => t.getV 0 = 0x3C) = true := by decide

theorem test_A5 : after (given 0x8011 ((regs2 0 0xF0 1 0x0F).setV 15 1))
    (fun t => t.getV 0 = 0xFF && t.getV 15 = 1) = true := by decide

theorem test_A6 : after (given 0x8012 (regs2 0 0xF0 1 0x3C)) (fun t => t.getV 0 = 0x30) = true := by decide

theorem test_A7 : after (given 0x8013 (regs2 0 0xF0 1 0x3C)) (fun t => t.getV 0 = 0xCC) = true := by decide

theorem test_A9 : after (given 0x8014 (regs2 0 255 1 255)) (fun t => t.getV 0 = 254 && t.getV 15 = 1) = true := by
  decide

theorem test_A11 : after (given 0x8F14 (regs2 15 200 1 100)) (fun t => t.getV 15 = 44) = true := by decide

theorem test_A13 : after (given 0x80F5 (regs2 0 5 15 3)) (fun t => t.getV 15 = 1 && t.getV 0 = 4) = true := by
  decide

theorem test_A14 : after (given 0x8F05 (regs2 15 5 0 3)) (fun t => t.getV 15 = 254) = true := by decide

theorem test_A17 : after (given 0x8016 (regs2 0 4 1 0xFF))
    (fun t => t.getV 0 = 2 && t.getV 15 = 0 && t.getV 1 = 0xFF) = true := by decide

theorem test_A19 : after (given 0x8F06 (State.reset.setV 15 3)) (fun t => t.getV 15 = 0) = true := by decide

theorem test_A22 : after (given 0x80F7 (regs2 0 3 15 5)) (fun t => t.getV 15 = 1 && t.getV 0 = 254) = true := by
  decide

theorem test_A23 : after (given 0x8F07 (regs2 15 3 0 5)) (fun t => t.getV 15 = 4) = true := by decide

theorem test_A24 : after (given 0x800E (State.reset.setV 0 0x81))
    (fun t => t.getV 0 = 0x02 && t.getV 15 = 1) = true := by decide

theorem test_A26 : after (given 0x8F0E (State.reset.setV 15 0x81)) (fun t => t.getV 15 = 2) = true := by decide

theorem test_A28 : after (given 0xC03C ((input 0 0xA7).setV 0 0xFF)) (fun t => t.getV 0 = 0x24) = true := by
  decide

theorem test_M1 : after (given 0xA123 State.reset) (fun t => t.i = 0x123) = true := by decide

theorem test_M2 : after (given 0xF01E ((State.reset.setI 0x0FFF).setV 0 2))
    (fun t => t.i = 0x1001 && t.getV 15 = 0) = true := by decide

theorem test_M3 : after (given 0xF01E ((State.reset.setI 0xFFFF).setV 0 2)) (fun t => t.i = 0x0001) = true := by
  decide

theorem test_M4 : after (given 0xF029 (State.reset.setV 0 255)) (fun t => t.i = 1275) = true := by decide

theorem test_X9 : after (given 0xF029 (State.reset.setV 0 0x0A))
    (fun t => t.i = 50 && (List.range 5).map (fun k => t.byteAt (50 + k)) = [0xF0, 0x90, 0xF0, 0x90, 0x90]) = true := by
  decide

theorem test_X10 : after (given 0xF033 ((State.reset.setV 0 157).setI 0x300))
    (fun t => t.byteAt 0x300 = 1 && t.byteAt 0x301 = 5 && t.byteAt 0x302 = 7) = true := by decide

theorem test_M8 : faultOf (given 0xF033 ((State.reset.setV 0 123).setI 4094)) = some (.dataRange 4096) := by decide

theorem test_M9 : after (given 0xF255 (((regs2 0 1 1 2).setV 2 3).setV 3 4 |>.setI 0x300))
    (fun t => (List.range 4).map (fun k => t.byteAt (0x300 + k)) = [1, 2, 3, 0] && t.i = 0x300) = true := by decide

theorem test_M11 : faultOf (given 0xF255 (((regs2 0 1 1 2).setV 2 3).setI 4094)) = some (.dataRange 4096) := by decide

theorem test_M12 : after (given 0xF265 ((data 0x300 [7, 8, 9, 10]).setV 3 0x55))
    (fun t => t.getV 0 = 7 && t.getV 1 = 8 && t.getV 2 = 9 && t.getV 3 = 0x55 && t.i = 0x300) = true := by decide

theorem test_M15 : after (given 0xF065 (data 4095 [0x11])) (fun t => t.getV 0 = 0x11) = true := by decide

theorem test_G1 : after (given 0x00E0 ((State.reset.setFb (cell 100) 1).setV 15 1))
    (fun t => t.fb = blankFb && t.drawRequested && t.drawPulse && t.getV 15 = 1) = true := by decide

/-- The state after reset with the other value of each mode. -/
def otherModes (s : State) : State :=
  { s with params := { s.params with keyWait := .blockingRetry, drawEdge := .clip } }

/-- The state of G3: two rows at the lower right corner of the grid. -/
def corner : State := ((data 0x300 [0xF0, 0x81]).setV 0 62).setV 1 31

/-- G3 (wrap) and G4 (clip). -/
theorem test_G3_G4 :
    after (given 0xD012 corner) (fun t =>
      [2046, 2047, 1984, 1985, 62, 5].all (fun k => t.getFb (cell k) = 1) && t.getV 15 = 0) = true ∧
    after (given 0xD012 (otherModes corner)) (fun t =>
      [2046, 2047].all (fun k => t.getFb (cell k) = 1) &&
      [1984, 1985, 62, 5].all (fun k => t.getFb (cell k) = 0) && t.getV 15 = 0) = true := by decide

/-- G12: `x = 15` and a collision on the first bit. -/
theorem test_G12 : after (given 0xDF01 (((data 0x300 [0xC0]).setV 15 5).setFb (cell 0) 1))
    (fun t => t.getFb (cell 0) = 0 && t.getFb (cell 2) = 1 && t.getFb (cell 1) = 0 && t.getV 15 = 1) = true := by
  decide

theorem test_K1 : after (given 0xE09E ((input 0x0020 0).setV 0 5)) (fun t => t.pc = 0x204) = true := by decide

theorem test_K9 : faultOf (given 0xE09E ((input 0xFFFF 0).setV 0 16)) = some (.keyRange 16) := by decide

theorem test_K7 : after (given 0xE0A1 ((input 0x0020 0).setV 0 5)) (fun t => t.pc = 0x202) = true := by decide

theorem test_K8 : after (given 0xE0A1 ((input 0 0).setV 0 5)) (fun t => t.pc = 0x204) = true := by decide

theorem test_K3 : after (given 0xF30A ((input 0x0224 0).setV 3 0xEE))
    (fun t => t.getV 3 = 9 && t.pc = 0x202) = true := by decide

theorem test_K4_blocking : after (given 0xF30A (otherModes ((input 0 0).setV 3 0xEE |>.setDt 5)))
    (fun t => t.getV 3 = 0xEE && t.pc = 0x200 && t.dt = 4) = true := by decide

theorem test_T1 : after (given 0xF015 (State.reset.setV 0 3)) (fun t => t.dt = 2) = true := by decide

theorem test_T3 : after (given 0xF015 (State.reset.setDt 9)) (fun t => t.dt = 0) = true := by decide

theorem test_T4 : after (given 0xF107 (State.reset.setDt 7)) (fun t => t.getV 1 = 7 && t.dt = 6) = true := by
  decide

theorem test_T5 : after (given 0xF018 (State.reset.setV 0 2))
    (fun t => t.st = 1 && t.soundRequested && t.soundPulse) = true := by decide

theorem test_T6 : after (given 0xF018 (State.reset.setSt 4))
    (fun t => t.st = 0 && !t.soundRequested && !t.soundPulse) = true := by decide

theorem test_T8 : after (given 0x0000 ((State.reset.setDt 255).setSt 255))
    (fun t => t.dt = 254 && t.st = 254 && t.soundRequested) = true := by decide

/-- H2. -/
theorem test_H2 : (State.reset.load [0x60, 0x07, 0x12, 0x02]).2 = 4 ∧
    (State.reset.load [0x60, 0x07, 0x12, 0x02]).1.byteAt 0x203 = 0x02 ∧
    (State.reset.load [0x60, 0x07, 0x12, 0x02]).1.byteAt 0x204 = 0 ∧
    (State.reset.load [0x60, 0x07, 0x12, 0x02]).1.pc = 0x200 := by decide

/-- H7. -/
theorem test_H7 : State.reset.requestDraw.drawAck.drawRequested = false := by decide

/-- R40: the two ends of the font and of what follows it. -/
theorem test_reset_memory : State.reset.byteAt 0 = 0xF0 ∧ State.reset.byteAt 79 = 0x80 ∧
    State.reset.byteAt 80 = 0 ∧ State.reset.byteAt 4095 = 0 ∧ Memory.wf defaultFont State.reset.mem := by decide

/-- Writing back what an unlisted address reads as removes the entry. -/
theorem test_canonical : ((State.reset.setByte 0x300 7).setByte 0x200 1).mem = [(0x200, 1), (0x300, 7)] ∧
    ((State.reset.setByte 0x300 7).setByte 0x300 0).mem = [] := by decide

/-! ### Witnesses: a state and operands that meet the hypotheses of each obligation -/

theorem fetch_of_given {s : State} {w : Nat} {v : Word}
    (h : (match s.withFetchWord 16 w |>.fetch with | .ok u => decide (u = v) | .error _ => false) = true) :
    (given w s).fetch = .ok v := by
  unfold given
  cases hf : (s.withFetchWord 16 w).fetch with
  | ok u => simpa [hf] using h
  | error f => simp [hf] at h

theorem witness_DecodeOfEncode : (Instr.jp 0xFFF).wellFormed = true ∧ (Instr.shr 15 15).wellFormed = true ∧
    decodeWord (encode (.jp 0xFFF)) = .instr (.jp 0xFFF) := by decide

theorem witness_EncodeOfDecoded : decodeWord 0x801E = .instr (.shl 0 1) ∧ encode (.shl 0 1) = 0x801E := by decide

theorem witness_DecoderFollowsOpcodeMap :
    (⟨19, 0x800E, 0xF00F⟩ : OpcodeRow) ∈ opcodeMap ∧ (0x8ABE : Word) &&& 0xF00F = 0x800E ∧
    decodeWord 0x8ABE = .instr (.shl 10 11) ∧ (Instr.shl 10 11).row = 19 := by decide

theorem witness_OpcodeRowsDisjoint :
    (⟨2, 0x00E0, 0xFFFF⟩ : OpcodeRow) ∈ opcodeMap ∧ (0x00E0 : Word) &&& 0xFFFF = 0x00E0 := by decide

theorem witness_UnrecognisedWordIsWarnedNoOp :
    (given 0xB123 State.reset).fetch = .ok 0xB123 ∧ ∀ r ∈ opcodeMap, (0xB123 : Word) &&& r.mask ≠ r.pattern :=
  ⟨fetch_of_given (by decide), by decide⟩

theorem witness_FetchIsBigEndian : (State.reset.setPc 4094).pc.toNat ≤ 4094 := by decide

theorem witness_FetchOutsideMemoryFaults :
    4094 < (State.reset.setPc 4095).pc.toNat ∧ step (State.reset.setPc 0xFFFF) = .fault (.fetchRange 0xFFFF) :=
  ⟨by decide, rfl⟩

theorem witness_StepRunsDecodedInstruction :
    (given 0x1234 State.reset).fetch = .ok 0x1234 ∧ decodeWord 0x1234 = .instr (.jp 0x234) ∧
    (Instr.jp 0x234).wellFormed = true :=
  ⟨fetch_of_given (by decide), by decide, by decide⟩

/-- `ST` non-zero after the execute phase, and `ST` zero. -/
theorem witness_TickFollowsExecute :
    (∃ u, (given 0xF018 (State.reset.setV 0 1)).fetch = .ok 0xF018 ∧
      execDecoded (decodeWord 0xF018) (given 0xF018 (State.reset.setV 0 1)).beginStep = .next u ∧
      u.st.toNat > 0) ∧
    (∃ u, (given 0xF018 State.reset).fetch = .ok 0xF018 ∧
      execDecoded (decodeWord 0xF018) (given 0xF018 State.reset).beginStep = .next u ∧ u.st = 0) :=
  ⟨⟨_, fetch_of_given (by decide), rfl, by decide⟩, ⟨_, fetch_of_given (by decide), rfl, by decide⟩⟩

theorem witness_TimersCountSteps :
    ∃ t, (given 0x0000 (State.reset.setDt 255)).fetch = .ok 0x0000 ∧
      step (given 0x0000 (State.reset.setDt 255)) = .next t ∧
      (∀ x, decodeWord 0x0000 ≠ .instr (.ldDtVx x)) ∧ (∀ x, decodeWord 0x0000 ≠ .instr (.ldStVx x)) :=
  ⟨_, fetch_of_given (by decide), rfl, by decide, by decide⟩

/-- One state for each line of the table of R254: a row of a draw, a digit, a register stored, a
register loaded, a key, outside; and the last ones inside. -/
theorem witness_StepFaultsExactly :
    raises (.drw 0 1 2) (State.reset.setI 4095) (.dataRange 4096) ∧
    raises (.ldB 0) (State.reset.setI 4094) (.dataRange 4096) ∧
    raises (.stRegs 1) (State.reset.setI 4095) (.dataRange 4096) ∧
    raises (.ldRegs 1) (State.reset.setI 4097) (.dataRange 4097) ∧
    raises (.skp 0) (State.reset.setV 0 16) (.keyRange 16) ∧
    raises (.sknp 0) (State.reset.setV 0 255) (.keyRange 255) ∧
    ¬ raises (.drw 0 1 1) (State.reset.setI 4095) (.dataRange 4096) ∧
    ¬ raises (.ldB 0) (State.reset.setI 4093) (.dataRange 4096) ∧
    ¬ raises (.skp 0) (State.reset.setV 0 15) (.keyRange 15) := by
  unfold raises
  decide

theorem witness_StoreIsSeenByNextFetch :
    (∃ t, exec (.stRegs 1) (State.reset.setI 0x200) = .next t) ∧ (1 : Reg).val = (0 : Reg).val + 1 ∧
    (1 : Reg) ≤ 1 ∧ (State.reset.setI 0x200).pc.toNat = (State.reset.setI 0x200).addr (0 : Reg).val :=
  ⟨⟨_, rfl⟩, by decide⟩

theorem witness_SelfJumpOnlyCountsDown :
    (given 0x1200 State.reset).fetch = .ok (wordA 0x1 (given 0x1200 State.reset).pc) :=
  fetch_of_given (by decide)

theorem witness_NopHasNoEffect : (given 0x0000 State.reset).fetch = .ok 0x0000 := fetch_of_given (by decide)

theorem witness_ReturnPopsOrFallsThrough :
    0 < depth2.sp.val ∧ 0 < depth32.sp.val ∧ depth32.sp.val = 32 ∧ State.reset.sp.val = 0 := by decide

theorem witness_JumpSetsPc : (0xFFF : Word).toNat < 4096 := by decide

/-- The stack with one free entry, and the full stack. -/
theorem witness_CallPushesUnlessFull :
    ({ depth32 with sp := 31 } : State).sp.val < 32 ∧ depth32.sp.val = 32 ∧ (0xFFF : Word).toNat < 4096 := by decide

theorem witness_CallThenReturn :
    (∃ t u : State, exec (.call 0xABC) { depth32 with sp := 31 } = .next t ∧ u.sp = t.sp ∧ u.stack = t.stack) ∧
    (∃ t u : State, exec (.call 0xABC) depth32 = .next t ∧ u.sp = t.sp ∧ u.stack = t.stack ∧ depth32.sp.val = 32) :=
  ⟨⟨_, _, rfl, rfl, rfl⟩, ⟨_, _, rfl, rfl, rfl, by decide⟩⟩

theorem witness_AddRegistersSetsCarry : (14 : Reg) ≠ flagReg := by decide

theorem witness_SubtractWritesFlagFirst : (14 : Reg) ≠ flagReg ∧ (0 : Reg) ≠ flagReg ∧ (15 : Reg) = flagReg := by
  decide

theorem witness_SubtractReversedWritesFlagFirst :
    (14 : Reg) ≠ flagReg ∧ (0 : Reg) ≠ flagReg ∧ (15 : Reg) = flagReg := by decide

theorem witness_ShiftsDropBitIntoFlag : (14 : Reg) ≠ flagReg ∧ (15 : Reg) = flagReg := by decide

theorem witness_RandomByteIsMasked :
    (input 0 0xA7).rnd = 0xA7 ∧ (0x3C : Byte).getLsbD 7 = false ∧ (0x00 : Byte) = 0 ∧ (0xFF : Byte) = 0xFF := by
  decide

theorem witness_IndexRegisterWrites : (0xFFF : Word).toNat < 4096 ∧ defaultParams.wf := by decide

/-- The last `I` at which the digits fit, and the first at which they do not. -/
theorem witness_DecimalDigitsStored :
    (State.reset.setI 4093).addr 2 ≤ 4095 ∧ 4095 < (State.reset.setI 4094).addr 2 := by decide

theorem witness_RegistersStored :
    (State.reset.setI 4080).addr (15 : Reg).val ≤ 4095 ∧ 4095 < (State.reset.setI 4081).addr (15 : Reg).val ∧
    (State.reset.setI 4095).addr (0 : Reg).val ≤ 4095 := by decide

theorem witness_RegistersLoaded :
    (State.reset.setI 4080).addr (15 : Reg).val ≤ 4095 ∧ 4095 < (State.reset.setI 4081).addr (15 : Reg).val ∧
    4095 < (State.reset.setI 4096).addr (0 : Reg).val := by decide

theorem witness_StoreThenLoadRestoresRegisters :
    ∃ t u : State, exec (.stRegs 2) ((regs2 0 1 1 2).setI 0x300) = .next t ∧ u.i = t.i ∧
      (∀ a, u.byteAt a = t.byteAt a) ∧ u.getV 0 ≠ 1 :=
  ⟨_, State.setV (match exec (.stRegs 2) ((regs2 0 1 1 2).setI 0x300) with | .next t => t | _ => State.reset) 0 9,
    rfl, rfl, fun _ => rfl, by decide⟩

/-- No row, the last row at 4095, and the last row at 4096. -/
theorem witness_DrawCompletesOrFaults :
    (0 : Fin 16).val = 0 ∧ (State.reset.setI 4081).addr ((15 : Fin 16).val - 1) ≤ 4095 ∧
    0 < (15 : Fin 16).val ∧ 4095 < (State.reset.setI 4082).addr ((15 : Fin 16).val - 1) := by decide

/-- One sprite bit at the origin of the grid. -/
theorem covers_origin (s : State) (h : spriteBit (s.byteAt (s.addr 0)) 0 = true)
    (he : edgeCell s.params.drawEdge (0 + 0) (0 + 0) = some (cell 0)) : s.spriteCovers 0 0 1 (cell 0) :=
  ⟨0, 0, by decide, by decide, h, he⟩

/-- A sprite over a lit cell and one over a dark cell, `x` and `y` not 15. -/
theorem witness_CollisionDetector :
    (0 : Reg) ≠ flagReg ∧ (1 : Reg) ≠ flagReg ∧ (data 0x300 [0x80]).addr ((1 : Fin 16).val - 1) ≤ 4095 ∧
    (data 0x300 [0x80]).spriteCovers 0 0 1 (cell 0) ∧
    ((data 0x300 [0x80]).setFb (cell 0) 1).getFb (cell 0) = 1 ∧ (data 0x300 [0x80]).getFb (cell 0) = 0 :=
  ⟨by decide, by decide, by decide, covers_origin _ (by decide) (by decide), by decide, by decide⟩

theorem getFb_reset (p : Fin Config.fbCells) : State.reset.getFb p = 0 := by
  simp [State.reset, State.resetWith, State.getFb, blankFb]

theorem witness_DrawTwiceRestores :
    (0 : Reg) ≠ flagReg ∧ (1 : Reg) ≠ flagReg ∧ (∃ t, exec (.drw 0 1 5) (State.reset.setI 50) = .next t) ∧
    ∀ p, (State.reset.setI 50).getFb p = 0 :=
  ⟨by decide, by decide, ⟨_, rfl⟩, getFb_reset⟩

theorem witness_DrawWithFlagAsPosition :
    (State.reset.setI 50).addr ((5 : Fin 16).val - 1) ≤ 4095 ∧
    ∀ p, (State.reset.setI 50).spriteCovers ((State.reset.setI 50).origin 0 15)
        ((State.reset.setI 50).origin 0 15) 5 p →
      (State.reset.setI 50).getFb p = 0 :=
  ⟨by decide, fun p _ => getFb_reset p⟩

/-- The first set bit is at column 3, over a lit cell. -/
theorem witness_DrawAfterCollisionUsesNewFlag :
    let s := (data 0x300 [0x1F]).setFb (cell 3) 1
    (0 : Reg) ≠ flagReg ∧ s.addr 0 ≤ 4095 ∧ (3 : Nat) < 8 ∧ spriteBit (s.byteAt (s.addr 0)) 3 = true ∧
    (∀ d, d < 3 → spriteBit (s.byteAt (s.addr 0)) d = false) ∧
    edgeCell s.params.drawEdge 3 (s.getV 0).toNat = some (cell 3) ∧ s.getFb (cell 3) = 1 := by decide

/-- The state of the collision witness: two rows, the first collision at row 1, column 2. -/
def secondRow : State := (data 0x300 [0x80, 0xE0]).setFb (cell 66) 1

/-- `x = y = 15`, two rows, and a first collision that is neither the first set bit nor in the first row. -/
theorem witness_DrawAfterFirstCollision :
    secondRow.addr ((2 : Fin 16).val - 1) ≤ 4095 ∧
    secondRow.spriteBitOn (secondRow.origin 0 15) (secondRow.origin 0 15) (2 : Fin 16).val 1 2 (cell 66) ∧
    secondRow.getFb (cell 66) = 1 ∧
    ∀ row col p, row * 8 + col < 1 * 8 + 2 →
      secondRow.spriteBitOn (secondRow.origin 0 15) (secondRow.origin 0 15) (2 : Fin 16).val row col p →
      secondRow.getFb p = 0 := by
  refine ⟨by decide, by unfold State.spriteBitOn; decide, by decide, ?_⟩
  rintro row col p hlt ⟨hr, hc, -, he⟩
  have hne : p ≠ cell 66 := fun h => by
    obtain ⟨h1, h2⟩ := edgeCell_inj (r' := 1) (c' := 2) he (h ▸ (by decide)) hc (by decide) (by omega) (by decide)
    omega
  have hf : secondRow.getFb p = (State.setFb (data 0x300 [0x80, 0xE0]) (cell 66) 1).getFb p := rfl
  rw [hf, State.getFb_setFb, if_neg hne]
  exact getFb_reset p

/-- A lit cell, a dark cell, and a bit off the grid in clip mode. -/
theorem witness_SpriteBitTogglesCell :
    edgeCell State.reset.params.drawEdge ((State.reset.getV 0).toNat + 7) ((State.reset.getV 1).toNat + 1) =
      some (cell 71) ∧
    (State.reset.setFb (cell 71) 1).getFb (cell 71) = 1 ∧ State.reset.getFb (cell 71) = 0 ∧
    edgeCell (otherModes (State.reset.setV 0 57)).params.drawEdge
      (((otherModes (State.reset.setV 0 57)).getV 0).toNat + 7) 1 = none := by decide

/-- The corner of the grid and one off it on each side; a start off the grid in each direction; the row
that is inside the memory and the one that is not. -/
theorem witness_ClipModeDropsPixelsOffGrid :
    ((63 : Nat) ≤ 63 ∧ (31 : Nat) ≤ 31) ∧ ¬ ((64 : Nat) ≤ 63 ∧ (31 : Nat) ≤ 31) ∧
    ¬ ((63 : Nat) ≤ 63 ∧ (32 : Nat) ≤ 31) ∧ (0 : Reg) ≠ flagReg ∧ (1 : Reg) ≠ flagReg ∧
    (otherModes State.reset).params.drawEdge = .clip ∧
    64 ≤ ((otherModes (State.reset.setV 0 64)).getV 0).toNat ∧
    32 ≤ ((otherModes (State.reset.setV 1 32)).getV 1).toNat ∧
    (otherModes (State.reset.setI 4095)).addr ((1 : Fin 16).val - 1) ≤ 4095 ∧
    4095 < (otherModes (State.reset.setI 4095)).addr ((2 : Fin 16).val - 1) := by decide

theorem witness_KeyTestsSkipOrFault :
    ((State.reset.setV 0 15).getV 0).toNat ≤ 15 ∧ 15 < ((State.reset.setV 0 16).getV 0).toNat := by decide

/-- Key 15 pressed; key 0 alone pressed; none pressed in either mode, and the word fetched. -/
theorem witness_KeyWaitTakesHighestOrGoesOn :
    ((input 0x8000 0).keys.getLsbD 15 = true) ∧
    ((input 0x0001 0).keys.getLsbD 0 = true ∧ ∀ j, 0 < j → j < 16 → (input 0x0001 0).keys.getLsbD j = false) ∧
    (∀ k, k < 16 → (input 0 0).keys.getLsbD k = false) ∧ (input 0 0).params.keyWait = .nonblockingLast ∧
    (∀ k, k < 16 → (given 0xF30A (otherModes (input 0 0))).keys.getLsbD k = false) ∧
    (given 0xF30A (otherModes (input 0 0))).params.keyWait = .blockingRetry ∧
    (given 0xF30A (otherModes (input 0 0))).fetch = .ok (wordX 0xF 3 0x0A) := by
  refine ⟨by decide, ⟨by decide, ?_⟩, by decide, by decide, by decide, by decide, fetch_of_given (by decide)⟩
  intro j h1 h2
  have h : ∀ j : Fin 16, 0 < j.val → (input 0x0001 0).keys.getLsbD j.val = false := by decide
  exact h ⟨j, h2⟩ h1

theorem witness_TimerAccesses :
    (given 0xF107 State.reset).fetch = .ok (wordX 0xF 1 0x07) ∧
    (given 0xF015 State.reset).fetch = .ok (wordX 0xF 0 0x15) ∧
    (given 0xF018 State.reset).fetch = .ok (wordX 0xF 0 0x18) :=
  ⟨fetch_of_given (by decide), fetch_of_given (by decide), fetch_of_given (by decide)⟩

theorem witness_InstructionsWriteOnlyTheirItems : ∃ t, exec (.addReg 15 15) (regs2 0 1 15 200) = .next t := ⟨_, rfl⟩

/-- A step that draws, one that warns, and one that finds the sound timer running. -/
theorem witness_OutputFlagsFollowPulses :
    (∃ t, (given 0x00E0 State.reset).fetch = .ok 0x00E0 ∧ step (given 0x00E0 State.reset) = .next t) ∧
    (∃ t, (given 0xB123 (State.reset.setSt 1)).fetch = .ok 0xB123 ∧
      step (given 0xB123 (State.reset.setSt 1)) = .next t) :=
  ⟨⟨_, fetch_of_given (by decide), rfl⟩, ⟨_, fetch_of_given (by decide), rfl⟩⟩

theorem witness_InputsReachOnlyTheirReaders :
    (∀ x kk, (Instr.drw 0 1 5) ≠ .rnd x kk) ∧ (∀ x, (Instr.drw 0 1 5) ≠ .skp x) ∧
    (∀ x, (Instr.drw 0 1 5) ≠ .sknp x) ∧ (∀ x, (Instr.drw 0 1 5) ≠ .ldVxK x) ∧
    (∀ x kk, (Instr.ldVxK 3) ≠ .rnd x kk) := by simp

theorem witness_SoundAndOutputsAreUnobservable :
    ∃ t, step (given 0x00E0 (State.reset.setSt 2)) = .next t ∧ t.st = 1 := ⟨_, rfl, by decide⟩

theorem reset_inv : State.reset.Inv := by
  unfold State.Inv
  decide

theorem witness_StepKeepsInvariant : State.reset.Inv ∧ ∃ t, step State.reset = .next t := ⟨reset_inv, _, rfl⟩

theorem witness_ResetMeetsInvariant : defaultParams.wf := by decide

theorem witness_HostMovesKeepInvariant : State.reset.Inv := reset_inv

theorem witness_ReachableStatesMeetInvariant : Reachable State.reset ∧ ∃ t, step State.reset = .next t :=
  ⟨.reset defaultParams (by decide), _, rfl⟩

theorem witness_ResetValues : (79 : Nat) < 80 ∧ 80 ≤ (4095 : Nat) ∧ (4095 : Nat) < 4096 := by decide

theorem witness_ResetIsTotalAndIdempotent :
    (State.reset.setV 3 7).params = (State.reset.setI 9).params ∧
    (State.reset.setV 3 7).inputs = (State.reset.setI 9).inputs ∧
    (State.reset.setV 3 7).inputIndex = (State.reset.setI 9).inputIndex ∧ 0x200 ≤ (0xFFF : Nat) :=
  ⟨rfl, rfl, rfl, by decide⟩

/-- The last byte of the largest image. -/
theorem witness_LoadCopiesTruncated : 3583 < min (List.replicate 4000 (1 : Byte)).length 3584 := by
  rw [List.length_replicate]
  decide

theorem witness_HostAcknowledgesAndInputs : State.reset.inputs = [] := rfl

end Sys2Proof.Tests
end

section
/-! PROOF. What a draw does, for every choice of position registers (spec/44_display.md R211 (g)). The
set bits of a sprite are numbered in the order they are drawn, bit `k` being at row `k / 8` and column
`k % 8`; a draw is then one pass over an ascending list of numbers, and the flag register is 0 up to the
first collision and 1 after it. -/

namespace Sys2Proof.Machine

/-! ### Cells complemented -/

/-- From `s` to `t` exactly the cells that `cov` names are complemented. -/
def Toggled (cov : Fin Config.fbCells → Prop) (s t : State) : Prop :=
  ∀ p, (cov p → t.getFb p = s.getFb p ^^^ 1) ∧ (¬ cov p → t.getFb p = s.getFb p)

theorem Toggled.congr {A B : Fin Config.fbCells → Prop} {s t : State} (h : Toggled A s t)
    (hAB : ∀ p, A p ↔ B p) : Toggled B s t :=
  fun p => ⟨fun hB => (h p).1 ((hAB p).2 hB), fun hB => (h p).2 fun hA => hB ((hAB p).1 hA)⟩

theorem Toggled.trans {A B : Fin Config.fbCells → Prop} {s t u : State} (h : Toggled A s t)
    (k : Toggled B t u) (hAB : ∀ p, A p → ¬ B p) : Toggled (fun p => A p ∨ B p) s u := by
  intro p
  constructor
  · rintro (hA | hB)
    · rw [(k p).2 (hAB p hA), (h p).1 hA]
    · rw [(k p).1 hB, (h p).2 fun hA => hAB p hA hB]
  · intro hn
    rw [(k p).2 fun hB => hn (.inr hB), (h p).2 fun hA => hn (.inl hA)]

/-! ### The cell of a numbered bit -/

/-- The cell bit `k` of a sprite falls on, in a draw begun in `s`, when it is drawn with the flag register
at `flag`. -/
def State.bitCell (s : State) (flag : Nat) (x y : Reg) (k : Nat) : Option (Fin Config.fbCells) :=
  edgeCell s.params.drawEdge (s.origin flag x + k % 8) (s.origin flag y + k / 8)

/-- The index of a visible cell, in either edge mode (R212 to R214). -/
theorem edgeCell_val {m : DrawEdge} {cx cy : Nat} {p : Fin Config.fbCells} (h : edgeCell m cx cy = some p) :
    p.val = cy % 32 * 64 + cx % 64 := by
  cases m with
  | wrap =>
    simp only [edgeCell, edgeWrap, Option.some.injEq] at h
    simp [← h, cellIndex]
  | clip =>
    simp only [edgeCell, edgeClip, Config.fbWidth, Config.fbHeight, Option.dite_none_right_eq_some,
      Option.some.injEq] at h
    obtain ⟨⟨hx, hy⟩, rfl⟩ := h
    simp [cellIndex, Nat.mod_eq_of_lt hx, Nat.mod_eq_of_lt hy]

theorem State.origin_le_succ (s : State) {f f' : Nat} (h : f ≤ f' ∧ f' ≤ f + 1) (x : Reg) :
    s.origin f x ≤ s.origin f' x ∧ s.origin f' x ≤ s.origin f x + 1 := by
  unfold State.origin
  split <;> omega

/-- A later bit never falls on the cell of an earlier one, even if the flag register rises from 0 to 1
between them. -/
theorem State.bitCell_ne_later {s : State} {f f' : Nat} {x y : Reg} {k k' : Nat} {p : Fin Config.fbCells}
    (h : s.bitCell f x y k = some p) (hk : k < k') (hk' : k' < 128) (hf : f ≤ f' ∧ f' ≤ f + 1) :
    s.bitCell f' x y k' ≠ some p := by
  intro h'
  have hv := edgeCell_val h
  have hv' := edgeCell_val h'
  have hx := s.origin_le_succ hf x
  have hy := s.origin_le_succ hf y
  omega

/-- The cells of the bits `ks`, bit `k` drawn with the flag register at `flag k`. -/
def State.bitsCover (s : State) (flag : Nat → Nat) (x y : Reg) (ks : List Nat) (p : Fin Config.fbCells) :
    Prop :=
  ∃ k ∈ ks, s.bitCell (flag k) x y k = some p

/-- One bit and then the later ones, the flag register rising by at most 1 in between. -/
theorem Toggled.cons {s t u v : State} {flag : Nat → Nat} {x y : Reg} {k : Nat} {ks : List Nat}
    (h : Toggled (fun p => s.bitCell (flag k) x y k = some p) t u)
    (hks : Toggled (s.bitsCover flag x y ks) u v)
    (hlt : ∀ k' ∈ ks, k < k' ∧ k' < 128) (hf : ∀ k' ∈ ks, flag k ≤ flag k' ∧ flag k' ≤ flag k + 1) :
    Toggled (s.bitsCover flag x y (k :: ks)) t v := by
  refine (h.trans hks ?_).congr fun p => by simp [State.bitsCover]
  rintro p hp ⟨k', hk', hp'⟩
  exact State.bitCell_ne_later hp (hlt k' hk').1 (hlt k' hk').2 (hf k' hk') hp'

/-! ### One bit -/

/-- `t` is a state of a draw begun in `s`, with the flag register at `flag`: what the place of the next
bit depends on. -/
def DrawAt (s : State) (flag : Nat) (t : State) : Prop :=
  t.params = s.params ∧ (∀ r, r ≠ flagReg → t.getV r = s.getV r) ∧ (t.getV flagReg).toNat = flag

theorem drawAt_start (s : State) : DrawAt s 0 (s.setFlag 0).requestDraw :=
  ⟨rfl, fun r hr => (State.getV_setV s flagReg r 0).trans (if_neg hr),
    congrArg BitVec.toNat ((State.getV_setV s flagReg flagReg 0).trans (if_pos rfl))⟩

theorem DrawAt.getV_flag {s t : State} {flag : Nat} (h : DrawAt s flag t) :
    t.getV flagReg = BitVec.ofNat _ flag := by
  rw [← h.2.2, BitVec.ofNat_toNat, BitVec.setWidth_eq]

theorem DrawAt.getV_toNat {s t : State} {flag : Nat} (h : DrawAt s flag t) (x : Reg) :
    (t.getV x).toNat = s.origin flag x := by
  obtain ⟨-, hr, hf⟩ := h
  by_cases hx : x = flagReg
  · simp [State.origin, hx, hf]
  · simp [State.origin, hx, hr x hx]

/-- Toggling a cell leaves the flag register at 1 on a collision, else where it was. -/
theorem DrawAt.hitCell {s t : State} {flag : Nat} (h : DrawAt s flag t) (p : Fin Config.fbCells) :
    DrawAt s (if t.getFb p = 1 then 1 else flag) (t.hitCell p) := by
  obtain ⟨hp, hr, hf⟩ := h
  have hd := DrawnFrom.hitCell t p
  refine ⟨hd.keeps.2.1.trans hp, fun r hne => (hd.2.1 r hne).trans (hr r hne), ?_⟩
  rw [State.getV_flag_hitCell, ← hf]
  split <;> rfl

theorem toggled_hitCell (t : State) (q : Fin Config.fbCells) : Toggled (fun p => q = p) t (t.hitCell q) := by
  intro p
  rw [State.getFb_hitCell]
  exact ⟨fun h => by rw [if_pos h.symm, h], fun h => if_neg fun e => h e.symm⟩

theorem DrawAt.drawBit_eq {s t : State} {flag : Nat} (h : DrawAt s flag t) (x y : Reg) (k : Nat) :
    t.drawBit x y (k / 8) (k % 8) = (s.bitCell flag x y k).elim t t.hitCell := by
  unfold State.drawBit State.bitCell
  rw [h.getV_toNat, h.getV_toNat, h.1]
  split <;> simp [*]

theorem DrawAt.toggled_drawBit {s t : State} {flag : Nat} (h : DrawAt s flag t) (x y : Reg) (k : Nat) :
    Toggled (fun p => s.bitCell flag x y k = some p) t (t.drawBit x y (k / 8) (k % 8)) := by
  rw [h.drawBit_eq]
  cases s.bitCell flag x y k with
  | none => exact fun p => ⟨fun e => (nomatch e), fun _ => rfl⟩
  | some q => exact (toggled_hitCell t q).congr fun p => by simp

/-- A bit that lights a dark cell, or that is drawn when the flag register is already 1, leaves it. -/
theorem DrawAt.drawBit_keeps_flag {s t : State} {flag : Nat} (h : DrawAt s flag t) {x y : Reg} {k : Nat}
    (hdark : flag = 1 ∨ ∀ p, s.bitCell flag x y k = some p → t.getFb p = 0) :
    DrawAt s flag (t.drawBit x y (k / 8) (k % 8)) := by
  rw [h.drawBit_eq]
  cases hc : s.bitCell flag x y k with
  | none => exact h
  | some q =>
    have hflag : (if t.getFb q = 1 then 1 else flag) = flag := by
      rcases hdark with rfl | hdark
      · exact ite_self 1
      · simp [hdark q hc]
    have hq := h.hitCell q
    rwa [hflag] at hq

/-- A bit over a lit cell sets the flag register. -/
theorem DrawAt.drawBit_sets_flag {s t : State} {flag : Nat} (h : DrawAt s flag t) {x y : Reg} {k : Nat}
    {q : Fin Config.fbCells} (hc : s.bitCell flag x y k = some q) (hq : t.getFb q = 1) :
    DrawAt s 1 (t.drawBit x y (k / 8) (k % 8)) := by
  rw [h.drawBit_eq, hc]
  have hh := h.hitCell q
  rwa [if_pos hq] at hh

/-! ### A list of bits -/

/-- The bits `ks` of a sprite, drawn one after the other. -/
def State.drawBits (x y : Reg) (ks : List Nat) (s : State) : State :=
  ks.foldl (fun t k => t.drawBit x y (k / 8) (k % 8)) s

theorem State.drawBits_cons (x y : Reg) (k : Nat) (ks : List Nat) (s : State) :
    s.drawBits x y (k :: ks) = (s.drawBit x y (k / 8) (k % 8)).drawBits x y ks := rfl

/-- Bits drawn with no collision, or with the flag register already 1, leave the flag register and
complement their cells. -/
theorem DrawAt.drawBits_steady {s t : State} {f : Nat} (h : DrawAt s f t) {flag : Nat → Nat} {x y : Reg}
    {ks : List Nat} (hks : ks.Pairwise (· < ·)) (hlt : ∀ k ∈ ks, k < 128) (hflag : ∀ k ∈ ks, flag k = f)
    (hdark : f = 1 ∨ ∀ p, s.bitsCover flag x y ks p → t.getFb p = 0) :
    DrawAt s f (t.drawBits x y ks) ∧ Toggled (s.bitsCover flag x y ks) t (t.drawBits x y ks) := by
  induction ks generalizing t with
  | nil => exact ⟨h, fun p => ⟨fun ⟨_, hk, _⟩ => (nomatch hk), fun _ => rfl⟩⟩
  | cons k ks ih =>
    obtain ⟨hk, hks⟩ := List.pairwise_cons.1 hks
    obtain ⟨-, hlt⟩ := List.forall_mem_cons.1 hlt
    obtain ⟨rfl, hflag⟩ := List.forall_mem_cons.1 hflag
    have hbit := h.toggled_drawBit x y k
    have hstep := h.drawBit_keeps_flag (hdark.imp_right fun hd p hp => hd p ⟨k, by simp, hp⟩)
    have hrise : ∀ k' ∈ ks, flag k ≤ flag k' ∧ flag k' ≤ flag k + 1 := fun k' hk' => by
      rw [hflag k' hk']; omega
    obtain ⟨hend, htail⟩ := ih hstep hks hlt hflag <| hdark.imp_right fun hd p ⟨k', hk', hp⟩ => by
      rw [(hbit p).2 fun hp' => State.bitCell_ne_later hp' (hk k' hk') (hlt k' hk') (hrise k' hk') hp]
      exact hd p ⟨k', by simp [hk'], hp⟩
    exact ⟨hend, hbit.cons htail (fun k' hk' => ⟨hk k' hk', hlt k' hk'⟩) hrise⟩

/-- What bit `k` finds in the flag register when the first collision is at bit `k₀`. -/
def flagAround (k₀ k : Nat) : Nat := if k ≤ k₀ then 0 else 1

/-- Bits of which number `k₀` is the first to collide: the flag register ends as 1, and the cells
complemented are those the bits find with it at 0 up to `k₀` and at 1 after it. -/
theorem DrawAt.drawBits_collision {s t : State} (h : DrawAt s 0 t) {x y : Reg} {ks : List Nat}
    (hks : ks.Pairwise (· < ·)) (hlt : ∀ k ∈ ks, k < 128) {k₀ : Nat} (hk₀ : k₀ ∈ ks) {q : Fin Config.fbCells}
    (hq : s.bitCell 0 x y k₀ = some q) (hlit : t.getFb q = 1)
    (hdark : ∀ k ∈ ks, k < k₀ → ∀ p, s.bitCell 0 x y k = some p → t.getFb p = 0) :
    DrawAt s 1 (t.drawBits x y ks) ∧
      Toggled (s.bitsCover (flagAround k₀) x y ks) t (t.drawBits x y ks) := by
  induction ks generalizing t with
  | nil => exact nomatch hk₀
  | cons k ks ih =>
    obtain ⟨hk, hks⟩ := List.pairwise_cons.1 hks
    obtain ⟨-, hlt⟩ := List.forall_mem_cons.1 hlt
    have hle : k ≤ k₀ := by
      rcases List.mem_cons.1 hk₀ with rfl | hmem
      · exact Nat.le_refl _
      · exact Nat.le_of_lt (hk k₀ hmem)
    have hzero : flagAround k₀ k = 0 := if_pos hle
    have hbit : Toggled (fun p => s.bitCell (flagAround k₀ k) x y k = some p) t _ :=
      hzero ▸ h.toggled_drawBit x y k
    have hrise : ∀ k' ∈ ks, flagAround k₀ k ≤ flagAround k₀ k' ∧ flagAround k₀ k' ≤ flagAround k₀ k + 1 :=
      fun k' _ => by rw [hzero]; unfold flagAround; split <;> omega
    suffices htail : DrawAt s 1 (t.drawBits x y (k :: ks)) ∧ Toggled (s.bitsCover (flagAround k₀) x y ks)
        (t.drawBit x y (k / 8) (k % 8)) (t.drawBits x y (k :: ks)) from
      ⟨htail.1, hbit.cons htail.2 (fun k' hk' => ⟨hk k' hk', hlt k' hk'⟩) hrise⟩
    rcases Nat.eq_or_lt_of_le hle with rfl | hlt₀
    · exact (h.drawBit_sets_flag hq hlit).drawBits_steady hks hlt
        (fun k' hk' => if_neg (Nat.not_le_of_gt (hk k' hk'))) (.inl rfl)
    · have hkeep : ∀ k' ∈ ks, ∀ p, s.bitCell 0 x y k' = some p →
          (t.drawBit x y (k / 8) (k % 8)).getFb p = t.getFb p := fun k' hk' p hp =>
        (hbit p).2 fun hp' =>
          State.bitCell_ne_later hp' (hk k' hk') (hlt k' hk') (by rw [hzero]; omega) hp
      have hmem : k₀ ∈ ks := (List.mem_cons.1 hk₀).resolve_left (Nat.ne_of_gt hlt₀)
      refine ih (h.drawBit_keeps_flag (.inr (hdark k (by simp) hlt₀))) hks hlt hmem
        ((hkeep k₀ hmem q hq).trans hlit) fun k' hk' hlt' p hp => ?_
      rw [hkeep k' hk' p hp]
      exact hdark k' (by simp [hk']) hlt' p hp

/-! ### A draw is one pass over the set bits of its sprite -/

/-- The set bits of the sprite at `I`, among the `m` bits from number `k` on. -/
def State.setBits (s : State) (k m : Nat) : List Nat :=
  (List.range' k m).filter fun j => spriteBit (s.byteAt (s.addr (j / 8))) (j % 8)

theorem State.pairwise_setBits (s : State) (k m : Nat) : (s.setBits k m).Pairwise (· < ·) :=
  List.Pairwise.filter _ (List.pairwise_lt_range')

theorem State.mem_setBits (s : State) (k m j : Nat) :
    j ∈ s.setBits k m ↔ (k ≤ j ∧ j < k + m) ∧ spriteBit (s.byteAt (s.addr (j / 8))) (j % 8) = true := by
  simp [State.setBits, List.mem_range'_1]

theorem State.setBits_lt (s : State) (n : Fin 16) : ∀ k ∈ s.setBits 0 (n.val * 8), k < 128 := by
  intro k hk
  have hbound := ((s.mem_setBits _ _ k).1 hk).1
  omega

theorem DrawnFrom.setBits_eq {s t : State} (h : DrawnFrom s t) (k m : Nat) : t.setBits k m = s.setBits k m := by
  obtain ⟨hi, -, -, hb⟩ := h.keeps
  simp [State.setBits, State.addr, hi, hb]

/-- Columns of one row are numbered bits of it; `byte` gives the byte of each row. -/
theorem State.drawCols_eq_drawBits (x y : Reg) (row : Nat) (byte : Nat → Byte) (cols : List Nat)
    (h8 : ∀ c ∈ cols, c < 8) (s : State) :
    cols.foldl (fun t c => if spriteBit (byte row) c then t.drawBit x y row c else t) s =
      s.drawBits x y ((cols.map (row * 8 + ·)).filter fun j => spriteBit (byte (j / 8)) (j % 8)) := by
  induction cols generalizing s with
  | nil => rfl
  | cons c cols ih =>
    obtain ⟨hc, h8⟩ := List.forall_mem_cons.1 h8
    have hdiv : (row * 8 + c) / 8 = row := by omega
    have hmod : (row * 8 + c) % 8 = c := by omega
    rw [List.foldl_cons, ih h8, List.map_cons, List.filter_cons, hdiv, hmod]
    split
    · rw [State.drawBits_cons, hdiv, hmod]
    · rfl

theorem State.drawRow_eq_drawBits (x y : Reg) (row : Nat) (s : State) :
    s.drawRow x y row (s.byteAt (s.addr row)) = s.drawBits x y (s.setBits (row * 8) 8) := by
  unfold State.setBits
  rw [List.range'_eq_map_range]
  exact State.drawCols_eq_drawBits x y row (fun r => s.byteAt (s.addr r)) (List.range 8)
    (fun _ hc => List.mem_range.1 hc) s

theorem State.drawRows_eq_drawBits (x y : Reg) (left row : Nat) (s : State)
    (h : s.i.toNat + row + left ≤ 4096) :
    State.drawRows x y left row s = .ok (s.drawBits x y (s.setBits (row * 8) (left * 8))) := by
  induction left generalizing row s with
  | zero => rfl
  | succ left ih =>
    have hd := DrawnFrom.drawRow x y row (s.byteAt (s.addr row)) s
    have ha : s.addr row < 4096 := by unfold State.addr; omega
    have hsplit : s.setBits (row * 8) ((left + 1) * 8) =
        s.setBits (row * 8) 8 ++ s.setBits ((row + 1) * 8) (left * 8) := by
      unfold State.setBits
      rw [← List.filter_append, Nat.succ_mul row, List.range'_append_1, Nat.succ_mul, Nat.add_comm 8]
    simp only [State.drawRows, State.readByte_inside s _ ha]
    rw [ih (row + 1) _ (by rw [hd.keeps.1]; omega), hd.setBits_eq, State.drawRow_eq_drawBits, hsplit]
    simp [State.drawBits]

/-- `Dxyn` whose rows lie inside the memory (R211). -/
theorem exec_drw_eq_drawBits (s : State) (x y : Reg) (n : Fin 16)
    (h : n.val = 0 ∨ s.addr (n.val - 1) ≤ 4095) :
    exec (.drw x y n) s =
      .next ((s.setFlag 0).requestDraw.drawBits x y (s.setBits 0 (n.val * 8))) := by
  change finish (State.drawRows x y n.val 0 (s.setFlag 0).requestDraw) = _
  rcases h with h0 | h
  · rw [h0]
    rfl
  · have hfits : s.i.toNat + 0 + n.val ≤ 4096 := by unfold State.addr at h; omega
    rw [State.drawRows_eq_drawBits x y n.val 0 (s.setFlag 0).requestDraw hfits]
    rfl

/-! ### The sprite's cells in the terms of the statements -/

theorem State.spriteBitOn_iff (s : State) (f : Nat) (x y : Reg) (n row col : Nat) (p : Fin Config.fbCells) :
    s.spriteBitOn (s.origin f x) (s.origin f y) n row col p ↔
      col < 8 ∧ row * 8 + col ∈ s.setBits 0 (n * 8) ∧ s.bitCell f x y (row * 8 + col) = some p := by
  rw [State.mem_setBits]
  unfold State.spriteBitOn State.bitCell
  by_cases hc : col < 8
  · have hdiv : (row * 8 + col) / 8 = row := by omega
    have hmod : (row * 8 + col) % 8 = col := by omega
    have hrow : (0 ≤ row * 8 + col ∧ row * 8 + col < 0 + n * 8) ↔ row < n := by omega
    rw [hdiv, hmod, hrow]
    exact ⟨fun ⟨hn, h8, hset, hp⟩ => ⟨h8, ⟨hn, hset⟩, hp⟩, fun ⟨h8, ⟨hn, hset⟩, hp⟩ => ⟨hn, h8, hset, hp⟩⟩
  · simp [hc]

theorem State.spriteCovers_iff (s : State) (f : Nat) (x y : Reg) (n : Nat) (p : Fin Config.fbCells) :
    s.spriteCovers (s.origin f x) (s.origin f y) n p ↔ s.bitsCover (fun _ => f) x y (s.setBits 0 (n * 8)) p := by
  unfold State.spriteCovers State.bitsCover
  simp only [State.spriteBitOn_iff]
  constructor
  · rintro ⟨row, col, -, hk, hp⟩
    exact ⟨_, hk, hp⟩
  · rintro ⟨k, hk, hp⟩
    have hkk : k / 8 * 8 + k % 8 = k := by omega
    exact ⟨k / 8, k % 8, by omega, by rwa [hkk], by rwa [hkk]⟩

theorem State.bitsCover_flagAround_iff (s : State) (x y : Reg) (n k₀ : Nat) (p : Fin Config.fbCells) :
    s.bitsCover (flagAround k₀) x y (s.setBits 0 (n * 8)) p ↔
      ∃ row col,
        (row * 8 + col ≤ k₀ ∧ s.spriteBitOn (s.origin 0 x) (s.origin 0 y) n row col p) ∨
        (k₀ < row * 8 + col ∧ s.spriteBitOn (s.origin 1 x) (s.origin 1 y) n row col p) := by
  unfold State.bitsCover flagAround
  simp only [State.spriteBitOn_iff]
  constructor
  · rintro ⟨k, hk, hp⟩
    have hkk : k / 8 * 8 + k % 8 = k := by omega
    refine ⟨k / 8, k % 8, ?_⟩
    rw [hkk]
    split at hp
    · exact .inl ⟨‹_›, by omega, hk, hp⟩
    · exact .inr ⟨by omega, by omega, hk, hp⟩
  · rintro ⟨row, col, ⟨hle, -, hk, hp⟩ | ⟨hgt, -, hk, hp⟩⟩
    · exact ⟨_, hk, by rwa [if_pos hle]⟩
    · exact ⟨_, hk, by rwa [if_neg (Nat.not_le_of_gt hgt)]⟩

/-- The bits of a one-row sprite drawn at `x = 15`, with `y` not 15. -/
theorem State.spriteBitOn_oneRow_flagReg (s : State) (f row col : Nat) {y : Reg} (hy : y ≠ flagReg)
    (p : Fin Config.fbCells) :
    s.spriteBitOn (s.origin f flagReg) (s.origin f y) 1 row col p ↔
      row = 0 ∧ col < 8 ∧ spriteBit (s.byteAt (s.addr 0)) col = true ∧
        edgeCell s.params.drawEdge (f + col) (s.getV y).toNat = some p := by
  simp only [State.spriteBitOn, State.origin, if_pos, if_neg hy, Nat.lt_one_iff]
  exact and_congr_right fun h => by rw [h, Nat.add_zero]

/-! ### The obligations -/

/-- Settles O39: with no collision the flag register stays 0 over the whole pass. -/
theorem drawWithFlagAsPosition : Obligations.DrawWithFlagAsPosition := by
  intro s x y n hin covers hdark
  have hcov := s.spriteCovers_iff 0 x y n.val
  obtain ⟨hflag, hcells⟩ := (drawAt_start s).drawBits_steady (x := x) (y := y) (flag := fun _ => 0)
    (s.pairwise_setBits 0 (n.val * 8)) (s.setBits_lt n) (fun _ _ => rfl)
    (.inr fun p hp => hdark p ((hcov p).2 hp))
  have hcells := hcells.congr fun p => (hcov p).symm
  refine ⟨_, exec_drw_eq_drawBits s x y n hin, hflag.getV_flag, fun p hp => ?_, fun p => (hcells p).2⟩
  rw [(hcells p).1 hp]
  exact congrArg (· ^^^ 1) (hdark p hp)

/-- Settles O59: the pass splits at the first collision, and no later target is an earlier one. -/
theorem drawAfterFirstCollision : Obligations.DrawAfterFirstCollision := by
  intro s x y n r c q hin bitOn hon hlit hdark target
  obtain ⟨-, hmem, hq⟩ := (s.spriteBitOn_iff 0 x y n.val r c q).1 hon
  obtain ⟨hflag, hcells⟩ := (drawAt_start s).drawBits_collision
    (s.pairwise_setBits 0 (n.val * 8)) (s.setBits_lt n) hmem hq hlit fun k hk hlt p hp => by
      have hkk : k / 8 * 8 + k % 8 = k := by omega
      exact hdark (k / 8) (k % 8) p (by omega)
        ((s.spriteBitOn_iff 0 x y n.val _ _ p).2 ⟨by omega, by rwa [hkk], by rwa [hkk]⟩)
  have hcells := hcells.congr (s.bitsCover_flagAround_iff x y n.val (r * 8 + c))
  exact ⟨_, exec_drw_eq_drawBits s x y n (.inr hin), hflag.getV_flag, fun p => (hcells p).1,
    fun p => (hcells p).2⟩

/-- Settles O40: the one-row case of `drawAfterFirstCollision`, no bit before the first set one. -/
theorem drawAfterCollisionUsesNewFlag : Obligations.DrawAfterCollisionUsesNewFlag := by
  intro s y c p hy hin hc hbit hfirst hp hlit
  have hon := fun f row col q => s.spriteBitOn_oneRow_flagReg f row col hy q
  have hle : ∀ d, spriteBit (s.byteAt (s.addr 0)) d = true → c ≤ d := fun d hd =>
    Nat.not_lt.1 fun hlt => by simp [hfirst d hlt] at hd
  have hfirstOn : s.spriteBitOn (s.origin 0 flagReg) (s.origin 0 y) 1 0 c p :=
    (hon 0 0 c p).2 ⟨rfl, hc, hbit, by rwa [Nat.zero_add]⟩
  obtain ⟨t, ht, hflag, hcov, hrest⟩ := drawAfterFirstCollision s flagReg y 1 0 c p hin hfirstOn hlit
    fun row col q hlt h => by
      obtain ⟨rfl, -, hset, -⟩ := (hon 0 row col q).1 h
      exact absurd (hle col hset) (by omega)
  refine ⟨t, ht, hflag, ?_, fun q hqp => ?_⟩
  · rw [hcov p ⟨0, c, .inl ⟨Nat.le_refl _, hfirstOn⟩⟩, hlit]
    rfl
  · split
    · next hany =>
      obtain ⟨d, hd, hset⟩ := List.any_eq_true.1 hany
      simp only [Bool.and_eq_true, decide_eq_true_eq, beq_iff_eq] at hset
      obtain ⟨⟨hcd, hset⟩, hq⟩ := hset
      exact hcov q ⟨0, d, .inr ⟨by omega, (hon 1 0 d q).2 ⟨rfl, List.mem_range.1 hd, hset, hq⟩⟩⟩
    · next hany =>
      refine hrest q ?_
      rintro ⟨row, col, ⟨hupto, h⟩ | ⟨hlater, h⟩⟩
      · obtain ⟨rfl, -, hset, hq⟩ := (hon 0 row col q).1 h
        have hcol : col = c := by have hcol := hle col hset; omega
        rw [hcol, Nat.zero_add, hp] at hq
        exact hqp (Option.some.inj hq).symm
      · obtain ⟨rfl, hcol, hset, hq⟩ := (hon 1 row col q).1 h
        have hcd : c < col := by omega
        exact hany (List.any_eq_true.2 ⟨col, List.mem_range.2 hcol, by simp [hcd, hset, hq]⟩)

end Sys2Proof.Machine
end

section
/-! PROOF. What the execute phase of an instruction leaves unchanged (spec/10_state.md R20 to R36): one
frame rule per operation on the state, then one line per instruction. -/

namespace Sys2Proof.Machine

/-! ### One frame rule per operation -/

theorem State.setV_frame (s : State) (x : Reg) (b : RegVal) :
    ChangesOnly (fun it => it = .v x) s (s.setV x b) := by
  intro it hit
  cases it with
  | v r => exact (State.getV_setV s x r b).trans (if_neg fun h => hit (by rw [h]))
  | _ => rfl

/-- A flag and then a result: the ALU operations with a flag (R166 to R170). -/
theorem State.setFlag_setV_frame (s : State) (x : Reg) (f b : RegVal) :
    ChangesOnly (fun it => it = .v x ∨ it = .v flagReg) s ((s.setFlag f).setV x b) :=
  ((s.setV_frame flagReg f).mono fun _ => .inr).trans (((s.setFlag f).setV_frame x b).mono fun _ => .inl)

theorem State.setPc_frame (s : State) (w : PcVal) : ChangesOnly (fun it => it = .pc) s (s.setPc w) := by
  intro it hit
  cases it with
  | pc => exact absurd rfl hit
  | _ => rfl

theorem State.skipIf_frame (s : State) (c : Bool) : ChangesOnly (fun it => it = .pc) s (s.skipIf c) :=
  s.skipIf_eq c ▸ s.setPc_frame _

theorem State.setI_frame (s : State) (w : IndexVal) : ChangesOnly (fun it => it = .i) s (s.setI w) := by
  intro it hit
  cases it with
  | i => exact absurd rfl hit
  | _ => rfl

theorem State.setDt_frame (s : State) (b : TimerVal) : ChangesOnly (fun it => it = .dt) s (s.setDt b) := by
  intro it hit
  cases it with
  | dt => exact absurd rfl hit
  | _ => rfl

theorem State.setSt_frame (s : State) (b : TimerVal) : ChangesOnly (fun it => it = .st) s (s.setSt b) := by
  intro it hit
  cases it with
  | st => exact absurd rfl hit
  | _ => rfl

theorem State.clearFb_frame (s : State) : ChangesOnly (fun it => ∃ p, it = .cell p) s s.clearFb := by
  intro it hit
  cases it with
  | cell p => exact absurd ⟨p, rfl⟩ hit
  | _ => rfl

theorem State.requestDraw_frame (s : State) :
    ChangesOnly (fun it => it = .drawRequested ∨ it = .drawPulse) s s.requestDraw := by
  intro it hit
  cases it with
  | drawRequested => exact absurd (.inl rfl) hit
  | drawPulse => exact absurd (.inr rfl) hit
  | _ => rfl

/-- The one stack entry a push writes is the one at `sp` (R26). -/
theorem State.pushPc_frame_at_sp (s : State) :
    ChangesOnly (fun it => it = .sp ∨ ∃ k, k.val = s.sp.val ∧ it = .stackEntry k) s s.pushPc := by
  rcases s.pushPc_cases with ⟨hlt, h⟩ | ⟨_, h⟩ <;> rw [h]
  · intro it hit
    cases it with
    | sp => exact absurd (.inl rfl) hit
    | stackEntry k => exact Vector.getElem_set_ne hlt k.isLt fun e => hit (.inr ⟨k, e.symm, rfl⟩)
    | _ => rfl
  · exact ChangesOnly.refl _ _

/-- A store at `I` writes the bytes at `I + k`, one for each it stores (R196). -/
theorem storeAtI_frame {s t : State} {bs : List Byte} (hne : bs ≠ [])
    (h : finish (s.storeBytes (s.addr 0) bs) = .next t) :
    ChangesOnly (fun it => ∃ k, k < bs.length ∧ it = .byte (s.addr k)) s t := by
  rcases storeAtI_cases s bs hne with ⟨_, m, hm, hb, _⟩ | ⟨_, hf⟩
  · obtain rfl := Host.Outcome.next.inj (hm.symm.trans h)
    intro it hit
    cases it with
    | byte a =>
      refine (hb a).trans (dif_neg fun ⟨hle, hlt⟩ => hit ⟨a - s.addr 0, hlt, ?_⟩)
      congr 1
      unfold State.addr at hle ⊢
      omega
    | _ => rfl
  · cases hf.symm.trans h

theorem execLdRegs_frame {s t : State} {x : Reg} (h : execLdRegs x s = .next t) :
    ChangesOnly (fun it => ∃ r, r ≤ x ∧ it = .v r) s t := by
  rcases execLdRegs_cases x s with ⟨_, v, hv, hg⟩ | ⟨_, hf⟩
  · obtain rfl := Host.Outcome.next.inj (hv.symm.trans h)
    intro it hit
    cases it with
    | v r => exact (hg r).trans (if_neg fun hle => hit ⟨r, hle, rfl⟩)
    | _ => rfl
  · cases hf.symm.trans h

/-! ### The key tests and the key wait -/

theorem skipOnKey_frame {s t : State} {x : Reg} {wanted : Bool}
    (h : finish (skipOnKey x wanted s) = .next t) : ChangesOnly (fun it => it = .pc) s t := by
  unfold skipOnKey at h
  split at h
  · cases h
    exact s.skipIf_frame _
  · cases h

/-- A scan for the last number that passes a test finds none exactly when none passes. -/
theorem foldl_last_eq_none_iff (test : Nat → Bool) (l : List Nat) (best : Option Nat) :
    l.foldl (fun best k => if test k then some k else best) best = none ↔
      best = none ∧ ∀ k ∈ l, test k = false := by
  induction l generalizing best with
  | nil => simp
  | cons k l ih =>
    rw [List.foldl_cons, ih]
    cases hk : test k <;> simp [hk]

theorem lastPressed_eq_none_iff (keys : Keys) : lastPressed keys = none ↔ keys = 0 := by
  unfold lastPressed
  rw [foldl_last_eq_none_iff]
  constructor
  · rintro ⟨-, h⟩
    exact BitVec.eq_of_getLsbD_eq fun k hk => (h k (List.mem_range.2 hk)).trans BitVec.getLsbD_zero.symm
  · rintro rfl
    exact ⟨rfl, fun k _ => BitVec.getLsbD_zero⟩

theorem State.noKey_frame (s : State) : ChangesOnly (fun it => it = .pc) s s.noKey := by
  unfold State.noKey
  split
  · exact ChangesOnly.refl _ s
  · exact s.setPc_frame _

/-- With a key pressed the key wait writes its register, with none it writes at most `pc` (R232). -/
theorem execLdVxK_frame {s t : State} {x : Reg} (h : execLdVxK x s = .next t) :
    ChangesOnly (fun it => if s.keys = 0 then it = .pc else it = .v x) s t := by
  obtain rfl := Host.Outcome.next.inj h
  have hnone := lastPressed_eq_none_iff s.keys
  cases hk : lastPressed s.keys with
  | none => exact s.noKey_frame.mono fun it hit => by rwa [if_pos (hnone.1 hk)]
  | some k =>
    have hne : s.keys ≠ 0 := fun h0 => by simp [hnone.2 h0] at hk
    exact (s.setV_frame x _).mono fun it hit => by rwa [if_neg hne]

/-! ### The draw -/

/-- A bit of a draw leaves the flag register at 0 or 1. -/
theorem DrawAt.drawBit_flag_le_one {s t : State} {flag : Nat} (h : DrawAt s flag t) (hf : flag ≤ 1)
    (x y : Reg) (k : Nat) : ∃ f, f ≤ 1 ∧ DrawAt s f (t.drawBit x y (k / 8) (k % 8)) := by
  rw [h.drawBit_eq]
  cases s.bitCell flag x y k with
  | none => exact ⟨flag, hf, h⟩
  | some q => exact ⟨_, by split <;> omega, h.hitCell q⟩

/-- A cell that bits of a draw change is the cell of one of them, the flag register at 0 or 1
(R211 (g)). -/
theorem DrawAt.drawBits_changes_covered {s t : State} {flag : Nat} (h : DrawAt s flag t) (hf : flag ≤ 1)
    {x y : Reg} {ks : List Nat} {p : Fin Config.fbCells}
    (hp : (t.drawBits x y ks).getFb p ≠ t.getFb p) : ∃ f, f ≤ 1 ∧ s.bitsCover (fun _ => f) x y ks p := by
  induction ks generalizing t flag with
  | nil => exact absurd rfl hp
  | cons k ks ih =>
    by_cases hc : s.bitCell flag x y k = some p
    · exact ⟨flag, hf, k, by simp, hc⟩
    · obtain ⟨f, hf', h'⟩ := h.drawBit_flag_le_one hf x y k
      rw [State.drawBits_cons, ← (h.toggled_drawBit x y k p).2 hc] at hp
      obtain ⟨g, hg, k', hk', hcov⟩ := ih h' hf' hp
      exact ⟨g, hg, k', by simp [hk'], hcov⟩

theorem execDrw_frame {s t : State} {x y : Reg} {n : Fin 16} (h : exec (.drw x y n) s = .next t) :
    ChangesOnly (mayWrite s (.drw x y n)) s t := by
  rcases execDrw_cases x y n s with ⟨hin, u, hu, _, hd⟩ | ⟨_, _, hf⟩
  · have hbits := (exec_drw_eq_drawBits s x y n hin).symm.trans h
    obtain rfl := Host.Outcome.next.inj (hu.symm.trans h)
    intro it hit
    obtain ⟨hflag, hreq, hpulse, hcell⟩ : it ≠ .v flagReg ∧ it ≠ .drawRequested ∧ it ≠ .drawPulse ∧ _ :=
      by simpa only [mayWrite, not_or] using hit
    obtain ⟨⟨v, fb, heq⟩, hregs, _⟩ := hd
    cases it with
    | v r =>
      have hr : r ≠ flagReg := fun e => hflag (by rw [e])
      exact (hregs r hr).trans ((State.getV_setFlag s r 0).trans (if_neg hr))
    | cell p =>
      refine Classical.byContradiction fun hp => ?_
      rw [← Host.Outcome.next.inj hbits] at hp
      obtain ⟨f, hf, hcov⟩ := (drawAt_start s).drawBits_changes_covered (Nat.zero_le 1) hp
      exact hcell ⟨f, p, hf, (s.spriteCovers_iff f x y n.val p).2 hcov, rfl⟩
    | drawRequested => exact absurd rfl hreq
    | drawPulse => exact absurd rfl hpulse
    | _ => rw [heq]; rfl
  · cases hf.symm.trans h

/-! ### The obligations -/

/-- Settles O47: instruction by instruction, by the frame rules of the operations it is made of. -/
theorem instructionsWriteOnlyTheirItems : Obligations.InstructionsWriteOnlyTheirItems := by
  intro i s t h
  cases i with
  | nop => cases h; exact ChangesOnly.refl _ s
  | cls =>
    cases h
    exact (s.clearFb_frame.mono fun _ => .inl).trans (s.clearFb.requestDraw_frame.mono fun _ => .inr)
  | ret =>
    cases h
    rcases s.popPc_cases with ⟨hpos, -⟩ | ⟨_, hsame⟩
    · exact s.popPc_frame.mono fun _ hit => ⟨hpos, hit.symm⟩
    · rw [hsame]
      exact ChangesOnly.refl _ s
  | jp nnn => cases h; exact s.setPc_frame nnn
  | call nnn =>
    cases h
    exact (s.pushPc_frame_at_sp.mono fun _ => .inr).trans ((s.pushPc.setPc_frame nnn).mono fun _ => .inl)
  | seImm | sneImm | seReg | sneReg => cases h; exact s.skipIf_frame _
  | ldImm x | addImm x | ldReg x | orReg x | andReg x | xorReg x | rnd x | ldVxDt x =>
    cases h
    exact s.setV_frame x _
  | addReg x | subReg x | shr x | subn x | shl x => cases h; exact s.setFlag_setV_frame x _ _
  | ldI | addI | ldF => cases h; exact s.setI_frame _
  | drw => exact execDrw_frame h
  | skp | sknp => exact skipOnKey_frame h
  | ldVxK => exact execLdVxK_frame h
  | ldDtVx => cases h; exact s.setDt_frame _
  | ldStVx => cases h; exact s.setSt_frame _
  | ldB x => exact storeAtI_frame (bcdDigits_ne_nil _) h
  | stRegs x =>
    refine (storeAtI_frame (valuesUpTo_ne_nil s x) h).mono ?_
    rintro _ ⟨k, hk, rfl⟩
    rw [length_valuesUpTo] at hk
    exact ⟨⟨k, Nat.lt_of_lt_of_le hk x.isLt⟩, Nat.le_of_lt_succ hk, rfl⟩
  | ldRegs => exact execLdRegs_frame h

/-- An item the decoded instruction may not write is kept, and a warning changes none but the warning. -/
theorem execDecoded_keeps {d : Decoded} {s u : State} (h : execDecoded d s = .next u) {it : Item}
    (hit : ∀ i, d = .instr i → ¬ mayWrite s i it) (hw : it ≠ .warning) : it.same s u := by
  cases d with
  | instr i => exact instructionsWriteOnlyTheirItems i s u h it (hit i rfl)
  | unrecognised w =>
    obtain rfl := Host.Outcome.next.inj h
    cases it with
    | warning => exact absurd rfl hw
    | _ => rfl

theorem mayWrite_ldVxK {s : State} {x : Reg} {it : Item} (h : mayWrite s (.ldVxK x) it) :
    it = .pc ∨ it = .v x := by
  by_cases h0 : s.keys = 0
  · exact .inl ((if_pos h0).mp h)
  · exact .inr ((if_neg h0).mp h)

theorem mayWrite_dt {s : State} {i : Instr} (h : mayWrite s i .dt) : ∃ x, i = .ldDtVx x := by
  cases i with
  | ldDtVx x => exact ⟨x, rfl⟩
  | ldVxK => exact absurd (mayWrite_ldVxK h) (by simp)
  | _ => simp [mayWrite] at h

theorem mayWrite_st {s : State} {i : Instr} (h : mayWrite s i .st) : ∃ x, i = .ldStVx x := by
  cases i with
  | ldStVx x => exact ⟨x, rfl⟩
  | ldVxK => exact absurd (mayWrite_ldVxK h) (by simp)
  | _ => simp [mayWrite] at h

/-- The sound outputs belong to the tick, and the count of samples to the end of the step. -/
theorem not_mayWrite_of_phase {s : State} {i : Instr} {it : Item}
    (hit : it = .soundRequested ∨ it = .soundPulse ∨ it = .inputIndex) : ¬ mayWrite s i it := by
  intro h
  cases i with
  | ldVxK => rcases mayWrite_ldVxK h with rfl | rfl <;> simp at hit
  | _ => rcases hit with rfl | rfl | rfl <;> simp [mayWrite] at h

theorem State.endStep_soundPulse (u : State) : u.endStep.soundPulse = (u.soundPulse || u.st != 0) := rfl

theorem State.endStep_soundRequested (u : State) :
    u.endStep.soundRequested = (u.soundRequested || u.st != 0) := rfl

theorem bne_zero_iff_toNat_pos (b : TimerVal) : (b != 0) = true ↔ 0 < b.toNat := by
  rw [bne_iff_ne, ne_eq, ← BitVec.toNat_inj, Nat.pos_iff_ne_zero]
  rfl

/-- Settles O12: the tick counts what the execute phase left, which is what the step began with. -/
theorem timersCountSteps : Obligations.TimersCountSteps := by
  intro s t w hw h
  obtain ⟨w', u, hw', hu, rfl⟩ := step_next.1 h
  obtain rfl := Except.ok.inj (hw.symm.trans hw')
  refine ⟨fun hno => ?_, fun hno => ?_⟩
  · have hdt : u.dt = s.dt := execDecoded_keeps (it := .dt) hu
      (fun i hi hm => by obtain ⟨x, rfl⟩ := mayWrite_dt hm; exact hno x hi) (by simp)
    rw [State.endStep_dt, tickDown_toNat, hdt]
  · have hst : u.st = s.st := execDecoded_keeps (it := .st) hu
      (fun i hi hm => by obtain ⟨x, rfl⟩ := mayWrite_st hm; exact hno x hi) (by simp)
    have hpulse : u.soundPulse = false :=
      execDecoded_keeps (it := .soundPulse) hu (fun _ _ => not_mayWrite_of_phase (by simp)) (by simp)
    refine ⟨by rw [State.endStep_st, tickDown_toNat, hst], ?_⟩
    rw [State.endStep_soundPulse, hpulse, hst, Bool.false_or, bne_zero_iff_toNat_pos]

end Sys2Proof.Machine
end

section
/-! PROOF. What a program cannot see: the sound timer, the outputs, and the inputs, but for the four
instructions that read these (spec/10_state.md R28, R31, R32, R38). A state is put together from the part a
program works on and the rest of another state; executing an instruction commutes with that. -/

namespace Sys2Proof.Machine

/-! ### The state a program works on, with the rest of another -/

/-- Registers, memory, stack, framebuffer, `DT` and parameters of `s`; the sound timer, the outputs and
the inputs of `o`. -/
def State.onto (s o : State) : State :=
  { o with v := s.v, i := s.i, pc := s.pc, sp := s.sp, stack := s.stack, dt := s.dt, mem := s.mem,
           fb := s.fb, params := s.params }

theorem State.onto_self (s : State) : s.onto s = s := rfl

@[simp] theorem State.onto_getV (s o : State) (x : Reg) : (s.onto o).getV x = s.getV x := rfl
@[simp] theorem State.onto_i (s o : State) : (s.onto o).i = s.i := rfl
@[simp] theorem State.onto_addr (s o : State) (k : Nat) : (s.onto o).addr k = s.addr k := rfl
@[simp] theorem State.onto_params (s o : State) : (s.onto o).params = s.params := rfl
@[simp] theorem State.onto_keys (s o : State) : (s.onto o).keys = o.keys := rfl

/-- What the execute phase of a decoded word in `s` does to the rest `o`. -/
def outsideAfter (s o : State) : Decoded → State
  | .instr .cls => o.requestDraw
  | .instr (.drw _ _ _) => o.requestDraw
  | .instr (.ldStVx x) => o.setSt (s.getV x)
  | .unrecognised w => o.warn w
  | _ => o

/-! ### The operations commute with it -/

theorem State.skipIf_onto (s o : State) (c : Bool) : (s.onto o).skipIf c = (s.skipIf c).onto o := by
  cases c <;> rfl

theorem State.pushPc_onto (s o : State) : (s.onto o).pushPc = s.pushPc.onto o := by
  by_cases h : s.sp.val < Config.stackDepth
  · have h' : (s.onto o).sp.val < Config.stackDepth := h
    simp only [State.pushPc, dif_pos h, dif_pos h']
    rfl
  · have h' : ¬ (s.onto o).sp.val < Config.stackDepth := h
    simp only [State.pushPc, dif_neg h, dif_neg h']

theorem State.popPc_onto (s o : State) : (s.onto o).popPc = s.popPc.onto o := by
  by_cases h : 0 < s.sp.val
  · have h' : 0 < (s.onto o).sp.val := h
    simp only [State.popPc, dif_pos h, dif_pos h']
    rfl
  · have h' : ¬ 0 < (s.onto o).sp.val := h
    simp only [State.popPc, dif_neg h, dif_neg h']

theorem State.noKey_onto (s o : State) : (s.onto o).noKey = s.noKey.onto o := by
  cases h : s.params.keyWait with
  | nonblockingLast => simp only [State.noKey, State.onto_params, h]
  | blockingRetry =>
    simp only [State.noKey, State.onto_params, h]
    rfl

theorem State.storeBytes_onto (bs : List Byte) (s o : State) (a : Nat) :
    (s.onto o).storeBytes a bs = (s.storeBytes a bs).map (·.onto o) := by
  induction bs generalizing s a with
  | nil => rfl
  | cons b bs ih =>
    by_cases ha : a < 4096
    · simp only [State.storeBytes, State.writeByte_inside _ a b ha]
      exact ih (s.setByte a b) (a + 1)
    · simp only [State.storeBytes, State.writeByte_outside _ a b (Nat.le_of_not_lt ha)]
      rfl

theorem State.loadRegs_onto (rs : List Reg) (s o : State) :
    (s.onto o).loadRegs rs = (s.loadRegs rs).map (·.onto o) := by
  induction rs generalizing s with
  | nil => rfl
  | cons r rs ih =>
    by_cases ha : s.i.toNat + r.val < 4096
    · simp only [State.loadRegs, State.onto_i, State.readByte_inside _ _ ha]
      exact ih (s.setV r (s.byteAt (s.i.toNat + r.val)))
    · simp only [State.loadRegs, State.onto_i, State.readByte_outside _ _ (Nat.le_of_not_lt ha)]
      rfl

theorem State.hitCell_onto (s o : State) (p : Fin Config.fbCells) :
    (s.onto o).hitCell p = (s.hitCell p).onto o := by
  by_cases h : s.getFb p = 1
  · have h' : (s.onto o).getFb p = 1 := h
    simp only [State.hitCell, if_pos h, if_pos h']
    rfl
  · have h' : ¬ (s.onto o).getFb p = 1 := h
    simp only [State.hitCell, if_neg h, if_neg h']
    rfl

theorem State.drawBit_onto (x y : Reg) (row col : Nat) (s o : State) :
    (s.onto o).drawBit x y row col = (s.drawBit x y row col).onto o := by
  unfold State.drawBit
  rw [State.onto_params, State.onto_getV, State.onto_getV]
  cases edgeCell s.params.drawEdge ((s.getV x).toNat + col) ((s.getV y).toNat + row) with
  | some p => exact s.hitCell_onto o p
  | none => rfl

theorem State.drawRow_onto (x y : Reg) (row : Nat) (b : Byte) (s o : State) :
    (s.onto o).drawRow x y row b = (s.drawRow x y row b).onto o := by
  refine List.foldl_hom (State.onto · o) fun t col => ?_
  split
  · exact t.drawBit_onto x y row col o
  · rfl

theorem State.drawRows_onto (x y : Reg) (left row : Nat) (s o : State) :
    State.drawRows x y left row (s.onto o) = (State.drawRows x y left row s).map (·.onto o) := by
  induction left generalizing row s with
  | zero => rfl
  | succ left ih =>
    by_cases ha : s.addr row < 4096
    · simp only [State.drawRows, State.onto_addr, State.readByte_inside _ _ ha]
      rw [State.drawRow_onto]
      exact ih (row + 1) _
    · simp only [State.drawRows, State.onto_addr, State.readByte_outside _ _ (Nat.le_of_not_lt ha)]
      rfl

theorem skipOnKey_onto {s o : State} (x : Reg) (wanted : Bool) (hk : o.keys = s.keys) :
    skipOnKey x wanted (s.onto o) = (skipOnKey x wanted s).map (·.onto o) := by
  unfold skipOnKey
  rw [State.onto_getV, State.onto_keys, hk, State.skipIf_onto]
  split <;> rfl

theorem execLdVxK_onto {s o : State} (x : Reg) (hk : o.keys = s.keys) :
    execLdVxK x (s.onto o) = onNext (execLdVxK x s) (·.onto o) := by
  unfold execLdVxK
  rw [State.onto_keys, hk, State.noKey_onto]
  cases lastPressed s.keys <;> rfl

theorem finish_map (r : Except Fault State) (f : State → State) :
    finish (r.map f) = onNext (finish r) f := by
  cases r <;> rfl

theorem finish_onto {a b : Except Fault State} {o : State} (h : a = b.map (·.onto o)) :
    finish a = onNext (finish b) (·.onto o) :=
  (congrArg finish h).trans (finish_map b _)

/-- What the execute phase does to the part a program works on does not depend on the rest, but for the
inputs its instruction reads; and what it does to the rest is `outsideAfter`. -/
theorem execDecoded_onto (d : Decoded) (s o : State)
    (hrnd : o.rnd = s.rnd ∨ ∀ x kk, d ≠ .instr (.rnd x kk))
    (hkeys : o.keys = s.keys ∨ ∀ x, d ≠ .instr (.skp x) ∧ d ≠ .instr (.sknp x) ∧ d ≠ .instr (.ldVxK x)) :
    execDecoded d (s.onto o) = onNext (execDecoded d s) (·.onto (outsideAfter s o d)) := by
  match d with
  | .unrecognised w => rfl
  | .instr i => ?_
  cases i with
  | nop | cls | jp | ldImm | addImm | ldReg | orReg | andReg | xorReg | addReg | subReg | shr | subn | shl
  | ldI | addI | ldF | ldVxDt | ldDtVx | ldStVx => rfl
  | ret => exact congrArg Host.Outcome.next (s.popPc_onto o)
  | call nnn => exact congrArg (fun t : State => Host.Outcome.next (t.setPc nnn)) (s.pushPc_onto o)
  | seImm | sneImm | seReg | sneReg => exact congrArg Host.Outcome.next (s.skipIf_onto o _)
  | rnd x kk =>
    have hr := hrnd.resolve_right fun h => h x kk rfl
    exact congrArg (fun b => Host.Outcome.next ((s.onto o).setV x (b &&& kk))) hr
  | drw x y n => exact finish_onto (State.drawRows_onto x y n.val 0 (s.setFlag 0).requestDraw o.requestDraw)
  | skp x => exact finish_onto (skipOnKey_onto x true (hkeys.resolve_right fun h => (h x).1 rfl))
  | sknp x => exact finish_onto (skipOnKey_onto x false (hkeys.resolve_right fun h => (h x).2.1 rfl))
  | ldVxK x => exact execLdVxK_onto x (hkeys.resolve_right fun h => (h x).2.2 rfl)
  | ldB x => exact finish_onto (State.storeBytes_onto _ s o _)
  | stRegs x => exact finish_onto (State.storeBytes_onto _ s o _)
  | ldRegs x => exact finish_onto (State.loadRegs_onto _ s o)

/-! ### What happens to the rest -/

/-- The rest of the state after a completed execute phase. -/
theorem execDecoded_outside {d : Decoded} {s u : State} (h : execDecoded d s = .next u) :
    u = u.onto (outsideAfter s s d) := by
  have hself := execDecoded_onto d s s (.inl rfl) (.inl rfl)
  rw [State.onto_self, h] at hself
  exact Host.Outcome.next.inj hself

/-- The state with another sound timer and other flags. -/
def State.withSound (s : State) (st : TimerVal) (dr sr : Bool) : State :=
  { s with st := st, drawRequested := dr, soundRequested := sr }

/-- The sound timer and the flags of the rest decide nothing but themselves. -/
theorem outsideAfter_withSound (s o : State) (d : Decoded) (st : TimerVal) (dr sr : Bool) :
    ∃ st' dr' sr', outsideAfter s (o.withSound st dr sr) d = (outsideAfter s o d).withSound st' dr' sr' := by
  unfold outsideAfter
  split <;> exact ⟨_, _, _, rfl⟩

theorem outsideAfter_inputs (s o : State) (d : Decoded) (l : List StepInput) (k : Nat) :
    outsideAfter s { o with inputs := l, inputIndex := k } d =
      { outsideAfter s o d with inputs := l, inputIndex := k } := by
  unfold outsideAfter
  split <;> rfl

theorem outsideAfter_drawPulse {s o : State} (ho : o.drawPulse = false) (d : Decoded) :
    (outsideAfter s o d).drawPulse = true ↔ d = .instr .cls ∨ ∃ x y n, d = .instr (.drw x y n) := by
  unfold outsideAfter
  split
  · simp
  · simp
  · simp [ho]
  · simp [ho]
  · next hcls hdrw _ _ =>
    refine iff_of_false (by simp [ho]) ?_
    rintro (hd | ⟨x, y, n, hd⟩)
    · exact hcls hd
    · exact hdrw x y n hd

theorem outsideAfter_drawRequested {s o : State} (ho : o.drawPulse = false) (d : Decoded) :
    (outsideAfter s o d).drawRequested = (o.drawRequested || (outsideAfter s o d).drawPulse) := by
  unfold outsideAfter
  split <;> simp [ho]

theorem outsideAfter_warning {s o : State} (ho : o.warning = none) (w : Word) :
    (outsideAfter s o (decodeWord w)).warning =
      if decodeWord w = .unrecognised w then some w else none := by
  cases hd : decodeWord w with
  | unrecognised u =>
    obtain rfl := ((decodeWord_unrecognised w u).1 hd).2
    exact (if_pos rfl).symm
  | instr i =>
    rw [if_neg Decoded.noConfusion, ← ho]
    cases i <;> rfl

/-! ### The obligations -/

/-- Settles O50: the rest of the two states differs in the sound timer and the flags alone, and the step
commutes with exchanging the rest. -/
theorem soundAndOutputsAreUnobservable : Obligations.SoundAndOutputsAreUnobservable := by
  intro s t st dr sr dp sp w h
  obtain ⟨w', u, hw, hu, rfl⟩ := step_next.1 h
  have hexec := execDecoded_onto (decodeWord w') s.beginStep (s.beginStep.withSound st dr sr)
    (.inl rfl) (.inl rfl)
  have hout := execDecoded_outside hu
  obtain ⟨st', dr', sr', hafter⟩ :=
    outsideAfter_withSound s.beginStep s.beginStep (decodeWord w') st dr sr
  generalize outsideAfter s.beginStep s.beginStep (decodeWord w') = rest at hout hafter
  rw [hu, hafter] at hexec
  refine ⟨tickDown st', dr', sr' || st' != 0, rest.soundPulse || st' != 0,
    step_next.2 ⟨w', u.onto (rest.withSound st' dr' sr'), hw, hexec, ?_⟩⟩
  rw [hout]
  rfl

/-- Settles O48: the pulses and the warning are those of the rest of the state, which begins cleared. -/
theorem outputFlagsFollowPulses : Obligations.OutputFlagsFollowPulses := by
  intro s t w hw h
  obtain ⟨w', u, hw', hu, rfl⟩ := step_next.1 h
  obtain rfl := Except.ok.inj (hw.symm.trans hw')
  have hout := execDecoded_outside hu
  have hsr : u.soundRequested = s.soundRequested :=
    execDecoded_keeps (it := .soundRequested) hu (fun _ _ => not_mayWrite_of_phase (by simp)) (by simp)
  have hsp : u.soundPulse = false :=
    execDecoded_keeps (it := .soundPulse) hu (fun _ _ => not_mayWrite_of_phase (by simp)) (by simp)
  refine ⟨?_, ?_, ?_, ?_⟩
  · rw [hout]
    exact outsideAfter_drawPulse rfl _
  · rw [hout]
    exact outsideAfter_warning rfl w
  · rw [hout]
    exact outsideAfter_drawRequested (o := s.beginStep) rfl _
  · rw [State.endStep_soundRequested, State.endStep_soundPulse, hsr, hsp, Bool.false_or]

theorem onNext_congr {a : Host.Outcome State Fault Refusal} {f g : State → State}
    (h : ∀ t, a = .next t → f t = g t) : onNext a f = onNext a g := by
  cases a with
  | next t => exact congrArg Host.Outcome.next (h t rfl)
  | _ => rfl

/-- Other inputs are the same to an instruction that reads none that differ. -/
theorem exec_withInputs (i : Instr) (s : State) (l : List StepInput) (k : Nat)
    (hrnd : State.rnd { s with inputs := l, inputIndex := k } = s.rnd ∨ ∀ x kk, i ≠ .rnd x kk)
    (hkeys : State.keys { s with inputs := l, inputIndex := k } = s.keys ∨
      ∀ x, i ≠ .skp x ∧ i ≠ .sknp x ∧ i ≠ .ldVxK x) :
    exec i { s with inputs := l, inputIndex := k } =
      onNext (exec i s) (fun t => { t with inputs := l, inputIndex := k }) := by
  refine (execDecoded_onto (.instr i) s { s with inputs := l, inputIndex := k } (by simpa using hrnd)
    (by simpa using hkeys)).trans (onNext_congr fun u hu => ?_)
  rw [outsideAfter_inputs]
  exact congrArg (fun t : State => { t with inputs := l, inputIndex := k })
    (execDecoded_outside (d := .instr i) hu).symm

/-- Settles O49: the two claims are `exec_withInputs` with no input read, and with the same keys. -/
theorem inputsReachOnlyTheirReaders : Obligations.InputsReachOnlyTheirReaders := by
  refine ⟨fun i s l k hrnd hskp hsknp hk => ?_, fun i s keys r q l hrnd => ?_⟩
  · exact exec_withInputs i s l k (.inr hrnd) (.inr fun x => ⟨hskp x, hsknp x, hk x⟩)
  · refine (exec_withInputs i { s with inputs := ⟨keys, r⟩ :: l } (⟨keys, q⟩ :: l) s.inputIndex
      (.inr hrnd) (.inl rfl)).trans (onNext_congr fun u hu => ?_)
    have hindex : u.inputIndex = s.inputIndex :=
      instructionsWriteOnlyTheirItems i _ u hu .inputIndex (not_mayWrite_of_phase (by simp))
    rw [← hindex]

end Sys2Proof.Machine
end

section
/-! PROOF. The invariant of memory, stack, program counter and parameters: kept by every operation of an
instruction under the bound the fetch gives on `pc`, hence by every step (spec/20_memory.md R60, R66, R77;
spec/41_flow.md R141, R148); and its beginning at reset. -/

namespace Sys2Proof

/-! ### A decoded instruction is well-formed (spec/30_encoding.md R93) -/

theorem fitsNnn_fieldNnn (w : Word) : fitsNnn (fieldNnn w) = true := by
  have hlt : w.toNat % 4096 < 65536 := by omega
  simp only [fitsNnn, fieldNnn, BitVec.toNat_ofNat, decide_eq_true_eq]
  omega

theorem decodeClass0_wellFormed {w : Word} {i : Instr} (h : decodeClass0 w = some i) :
    i.wellFormed = true := by
  unfold decodeClass0 at h
  repeat' split at h
  all_goals cases h <;> rfl

theorem decodeClass8_wellFormed {x y : Reg} {n : Nat} {i : Instr} (h : decodeClass8 x y n = some i) :
    i.wellFormed = true := by
  unfold decodeClass8 at h
  split at h <;> cases h <;> rfl

theorem decodeClassE_wellFormed {x : Reg} {kk : Nat} {i : Instr} (h : decodeClassE x kk = some i) :
    i.wellFormed = true := by
  unfold decodeClassE at h
  split at h <;> cases h <;> rfl

theorem decodeClassF_wellFormed {x : Reg} {kk : Nat} {i : Instr} (h : decodeClassF x kk = some i) :
    i.wellFormed = true := by
  unfold decodeClassF at h
  split at h <;> cases h <;> rfl

theorem decodeInstr_wellFormed {w : Word} {i : Instr} (h : decodeInstr w = some i) :
    i.wellFormed = true := by
  unfold decodeInstr at h
  split at h
  case h_1 => exact decodeClass0_wellFormed h
  case h_9 => exact decodeClass8_wellFormed h
  case h_14 => exact decodeClassE_wellFormed h
  case h_15 => exact decodeClassF_wellFormed h
  case h_2 | h_3 | h_11 => cases h; exact fitsNnn_fieldNnn w
  case h_6 | h_10 =>
    split at h <;> cases h
    rfl
  case h_16 => cases h
  all_goals cases h; rfl

end Sys2Proof

namespace Sys2Proof.Machine

/-! ### The invariant during the execute phase -/

/-- The invariant while an instruction executes: the fetch has left `pc` at most 4096. -/
def State.ExecInv (s : State) : Prop := s.Inv ∧ 2 ≤ s.pc.toNat ∧ s.pc.toNat ≤ 4096

theorem State.Inv.beginStep {s : State} (h : s.Inv) {w : Word} (hw : s.fetch = .ok w) :
    s.beginStep.ExecInv := by
  obtain ⟨hmem, hstack, _, hp⟩ := h
  have hfetch := State.fetch_ok hw
  have hpc : s.beginStep.pc.toNat = s.pc.toNat + 2 := by
    rw [State.beginStep_pc, BitVec.toNat_add]
    simp
    omega
  exact ⟨⟨hmem, hstack, by omega, hp⟩, by omega, by omega⟩

theorem State.Inv.endStep {s : State} (h : s.Inv) : s.endStep.Inv := h

/-- An operation that leaves memory, stack and parameters keeps the invariant if `pc` keeps its bound. -/
theorem State.Inv.of_same {s t : State} (h : s.Inv) (hmem : t.mem = s.mem) (hstack : t.stack = s.stack)
    (hparams : t.params = s.params) (hpc : t.pc.toNat ≤ 4098) : t.Inv := by
  obtain ⟨hm, hk, _, hp⟩ := h
  unfold State.Inv
  rw [hmem, hstack, hparams]
  exact ⟨hm, hk, hpc, hp⟩

theorem State.Inv.stack_le {s : State} (h : s.Inv) (k : Fin Config.stackDepth) : s.stack[k].toNat ≤ 4096 :=
  h.2.1 k

theorem State.ExecInv.skipIf {s : State} (h : s.ExecInv) (c : Bool) : (s.skipIf c).Inv := by
  obtain ⟨hinv, _, hpc⟩ := h
  rw [State.skipIf_eq]
  refine hinv.of_same rfl rfl rfl ?_
  rw [State.setPc_pc]
  split
  · rw [BitVec.toNat_add]
    simp
    omega
  · omega

theorem State.ExecInv.noKey {s : State} (h : s.ExecInv) : s.noKey.Inv := by
  obtain ⟨hinv, hlow, hpc⟩ := h
  unfold State.noKey
  split
  · exact hinv
  · refine hinv.of_same rfl rfl rfl ?_
    have hle : (2 : PcVal) ≤ s.pc := BitVec.le_def.2 hlow
    have hback : (s.pc - 2).toNat = s.pc.toNat - 2 := BitVec.toNat_sub_of_le hle
    change (s.pc - 2).toNat ≤ 4098
    omega

/-- A push stores the address the fetch left, which is at most 4096 (R141). -/
theorem State.ExecInv.pushPc {s : State} (h : s.ExecInv) : s.pushPc.Inv := by
  obtain ⟨hinv, _, hpc⟩ := h
  rcases s.pushPc_cases with ⟨_, hpush⟩ | ⟨_, hpush⟩ <;> rw [hpush]
  · obtain ⟨hmem, hstack, hpc', hp⟩ := hinv
    refine ⟨hmem, fun k => ?_, hpc', hp⟩
    have hset := hstack k
    simp only [Fin.getElem_fin, Vector.getElem_set] at hset ⊢
    split
    · exact hpc
    · exact hset
  · exact hinv

theorem State.Inv.popPc {s : State} (h : s.Inv) : s.popPc.Inv := by
  rcases s.popPc_cases with ⟨_, _, hk, hpop⟩ | ⟨_, hpop⟩ <;> rw [hpop]
  · exact h.of_same rfl rfl rfl (Nat.le_trans (h.stack_le ⟨s.sp.val - 1, hk⟩) (by omega))
  · exact h

theorem State.Inv.setPc {s : State} (h : s.Inv) {nnn : Word} (hn : fitsNnn nnn = true) :
    (s.setPc nnn).Inv := by
  have hlt : nnn.toNat < 4096 := of_decide_eq_true hn
  exact h.of_same rfl rfl rfl (Nat.le_trans (Nat.le_of_lt hlt) (by omega))

theorem State.Inv.storeAtI {s t : State} (h : s.Inv) {bs : List Byte} (hne : bs ≠ [])
    (ht : finish (s.storeBytes (s.addr 0) bs) = .next t) : t.Inv := by
  rcases storeAtI_cases s bs hne with ⟨_, m, hm, _, hwf⟩ | ⟨_, hf⟩
  · obtain rfl := Host.Outcome.next.inj (hm.symm.trans ht)
    obtain ⟨hmem, hrest⟩ := h
    exact ⟨hwf hmem, hrest⟩
  · cases hf.symm.trans ht

theorem State.Inv.loadRegs {s t : State} (h : s.Inv) {x : Reg} (ht : execLdRegs x s = .next t) : t.Inv := by
  rcases execLdRegs_cases x s with ⟨_, v, hv, _⟩ | ⟨_, hf⟩
  · obtain rfl := Host.Outcome.next.inj (hv.symm.trans ht)
    exact h
  · cases hf.symm.trans ht

theorem State.Inv.draw {s t : State} (h : s.Inv) {x y : Reg} {n : Fin 16} (ht : execDrw x y n s = .next t) :
    t.Inv := by
  rcases execDrw_cases x y n s with ⟨_, u, hu, _, ⟨v, fb, hd⟩, _⟩ | ⟨_, _, hf⟩
  · obtain rfl := Host.Outcome.next.inj (hu.symm.trans ht)
    rw [hd]
    exact h
  · cases hf.symm.trans ht

theorem State.ExecInv.skipOnKey {s t : State} (h : s.ExecInv) {x : Reg} {wanted : Bool}
    (ht : finish (skipOnKey x wanted s) = .next t) : t.Inv := by
  unfold Machine.skipOnKey at ht
  split at ht
  · obtain rfl := Host.Outcome.next.inj ht
    exact h.skipIf _
  · cases ht

theorem State.ExecInv.keyWait {s t : State} (h : s.ExecInv) {x : Reg} (ht : execLdVxK x s = .next t) :
    t.Inv := by
  obtain rfl := Host.Outcome.next.inj ht
  cases lastPressed s.keys with
  | none => exact h.noKey
  | some k => exact h.1

/-- Every instruction keeps the invariant of the execute phase, but for the lower bound on `pc`. -/
theorem exec_keeps_inv {i : Instr} (hi : i.wellFormed = true) {s t : State} (h : s.ExecInv)
    (ht : exec i s = .next t) : t.Inv := by
  have hinv : s.Inv := h.1
  cases i with
  | nop | cls | ldImm | addImm | ldReg | orReg | andReg | xorReg | addReg | subReg | shr | subn | shl
  | ldI | rnd | addI | ldF | ldVxDt | ldDtVx | ldStVx => cases ht; exact hinv
  | ret => cases ht; exact hinv.popPc
  | jp => cases ht; exact hinv.setPc hi
  | call => cases ht; exact h.pushPc.setPc hi
  | seImm | sneImm | seReg | sneReg => cases ht; exact h.skipIf _
  | drw => exact hinv.draw ht
  | skp | sknp => exact h.skipOnKey ht
  | ldVxK => exact h.keyWait ht
  | ldB => exact hinv.storeAtI (bcdDigits_ne_nil _) ht
  | stRegs x => exact hinv.storeAtI (valuesUpTo_ne_nil s x) ht
  | ldRegs => exact hinv.loadRegs ht

/-! ### The obligations -/

/-- Settles O51: the fetch bounds `pc`, the instruction it decodes is well-formed and keeps the
invariant, and the tick touches none of it. -/
theorem stepKeepsInvariant : Obligations.StepKeepsInvariant := by
  intro s t h ht
  obtain ⟨w, u, hw, hu, rfl⟩ := step_next.1 ht
  have hbegin := h.beginStep hw
  refine State.Inv.endStep ?_
  cases hd : decodeWord w with
  | instr i =>
    rw [hd] at hu
    exact exec_keeps_inv (decodeInstr_wellFormed ((decodeWord_instr w i).1 hd)) hbegin hu
  | unrecognised v =>
    rw [hd] at hu
    obtain rfl := Host.Outcome.next.inj hu
    exact hbegin.1

/-- The state after reset meets the invariant under every admissible choice of the parameters. -/
theorem inv_resetWith {p : Params} (hp : p.wf) : (State.resetWith p).Inv := by
  have hpc : (BitVec.ofNat Config.pcBits Config.progBase).toNat ≤ 4098 := by decide
  refine ⟨Memory.wf_nil _, fun k => ?_, hpc, hp⟩
  simp [State.resetWith]

/-- Settles O52: the defaults are an admissible choice. -/
theorem resetMeetsInvariant : Obligations.ResetMeetsInvariant :=
  ⟨inv_resetWith (by decide), fun _ => inv_resetWith⟩

end Sys2Proof.Machine
end

section
/-! PROOF. Reset and the host's acknowledges and inputs (spec/10_state.md R31 to R36, R40, R41). -/

namespace Sys2Proof.Machine

/-! ### The reset content of memory (R40) -/

theorem resetByte_font (font : Font) {a : Nat} (h : a < 80) : font[a]? = some (resetByte font a) := by
  have hin : Config.fontBase ≤ a ∧ a - Config.fontBase < Config.fontBytes := ⟨Nat.zero_le a, h⟩
  unfold resetByte
  rw [dif_pos hin]
  exact Vector.getElem?_eq_getElem h

theorem resetByte_above_font (font : Font) {a : Nat} (h : 80 ≤ a) : resetByte font a = 0 :=
  dif_neg fun hin => absurd hin.2 (Nat.not_lt.2 h)

/-- Nothing is listed after reset, so every address reads as its reset content. -/
theorem State.resetWith_byteAt (p : Params) (a : Nat) : (State.resetWith p).byteAt a = resetByte p.font a :=
  rfl

/-! ### Frames of the host's moves -/

theorem State.hostReset_frame (s : State) :
    ChangesOnly (fun it => it = .inputs ∨ it = .inputIndex) (State.resetWith s.params) s.hostReset := by
  intro it hit
  cases it with
  | inputs => exact absurd (.inl rfl) hit
  | inputIndex => exact absurd (.inr rfl) hit
  | _ => rfl

theorem State.drawAck_frame (s : State) : ChangesOnly (fun it => it = .drawRequested) s s.drawAck := by
  intro it hit
  cases it with
  | drawRequested => exact absurd rfl hit
  | _ => rfl

theorem State.soundAck_frame (s : State) : ChangesOnly (fun it => it = .soundRequested) s s.soundAck := by
  intro it hit
  cases it with
  | soundRequested => exact absurd rfl hit
  | _ => rfl

theorem State.supply_frame (s : State) (inp : StepInput) :
    ChangesOnly (fun it => it = .inputs) s (s.supply inp) := by
  intro it hit
  cases it with
  | inputs => exact absurd rfl hit
  | _ => rfl

/-! ### The obligations -/

/-- Settles O55: an item that is an array is read at each of its places. -/
theorem resetValues : Obligations.ResetValues := by
  refine ⟨fun u => ⟨rfl, rfl, u.hostReset_frame⟩, fun p => ?_⟩
  have hv : ∀ r, (State.resetWith p).getV r = 0 := fun r => by simp [State.resetWith, State.getV]
  have hstack : ∀ k : Fin Config.stackDepth, (State.resetWith p).stack[k] = 0 := fun k => by
    simp [State.resetWith]
  have hfont : ∀ a, a < 80 → p.font[a]? = some ((State.resetWith p).byteAt a) := fun _ ha =>
    (resetByte_font p.font ha).trans (congrArg some (State.resetWith_byteAt p _).symm)
  have hrest : ∀ a, 80 ≤ a → a < 4096 → (State.resetWith p).byteAt a = 0 := fun _ ha _ =>
    (State.resetWith_byteAt p _).trans (resetByte_above_font p.font ha)
  have hfb : ∀ q, (State.resetWith p).getFb q = 0 := (State.resetWith p).getFb_clearFb
  exact ⟨hv, rfl, rfl, rfl, hstack, rfl, rfl, hfont, hrest, hfb, rfl, rfl⟩

/-- Settles O56: a reset state is made of the parameters and the inputs alone. -/
theorem resetIsTotalAndIdempotent : Obligations.ResetIsTotalAndIdempotent := by
  refine ⟨fun s => rfl, fun s t hparams hinputs hindex => ?_, fun s a ha => ?_⟩
  · simp only [State.hostReset, hparams, hinputs, hindex]
  · have hread : s.hostReset.byteAt a = (State.resetWith s.params).byteAt a :=
      s.hostReset_frame (.byte a) (by simp)
    rw [hread, State.resetWith_byteAt]
    exact resetByte_above_font s.params.font (Nat.le_trans (by decide) ha)

/-- Settles O58: the sample supplied to a machine with none pending stands first. -/
theorem hostAcknowledgesAndInputs : Obligations.HostAcknowledgesAndInputs := by
  intro s inp
  refine ⟨⟨rfl, s.drawAck_frame⟩, ⟨rfl, s.soundAck_frame⟩, s.supply_frame inp, fun hnone => ?_⟩
  have hfirst : (s.supply inp).inputs = [inp] := congrArg (· ++ [inp]) hnone
  exact ⟨State.keys_of_supplied _ inp [] hfirst, State.rnd_of_supplied _ inp [] hfirst⟩

end Sys2Proof.Machine
end

section
/-! PROOF. The fetch, stores that a fetch sees, and when and how an instruction over memory ends in a fault
(spec/20_memory.md R62 to R71, spec/60_exceptions.md R254). -/

namespace Sys2Proof

/-- No bit of the two bytes is lost: the word is below 65536 (R62). -/
theorem toNat_wordOfBytes (hi lo : Byte) : (wordOfBytes hi lo).toNat = hi.toNat * 256 + lo.toNat := by
  have hhi : hi.toNat < 256 := hi.isLt
  have hlo : lo.toNat < 256 := lo.isLt
  rw [wordOfBytes, BitVec.toNat_ofNat]
  omega

theorem decodeWord_drw (x y : Reg) (n : Fin 16) : decodeWord (wordXYN 0xD x y n) = .instr (.drw x y n) := by
  have hop : (13 : Nat) < 16 := by decide
  rw [decodeWord_instr, decodeInstr, Laws.EncodedClass.fieldOp_wordXYN _ x y n hop,
    fieldX_wordXYN _ x y n hop, fieldY_wordXYN _ x y n hop, fieldN_wordXYN _ x y n hop]
  rfl

end Sys2Proof

namespace Sys2Proof.Machine

/-! ### When the execute phase faults -/

/-- An outcome that is a fault under one condition, and a next state otherwise. -/
theorem fault_iff_of_cases {o : Host.Outcome State Fault Refusal} {c : Prop} {g : Fault}
    (h : (¬ c ∧ ∃ t, o = .next t) ∨ (c ∧ o = .fault g)) (f : Fault) : o = .fault f ↔ c ∧ f = g := by
  rcases h with ⟨hc, t, rfl⟩ | ⟨hc, rfl⟩
  · exact iff_of_false (by simp) fun hf => hc hf.1
  · simp [hc, eq_comm]

/-- The two outcomes of `Fx55` (spec/43_index_memory.md R194). -/
theorem execStRegs_cases (x : Reg) (s : State) :
    (s.i.toNat + x.val ≤ 4095 ∧
      ∃ m, execStRegs x s = .next { s with mem := m } ∧
        ∀ r, r ≤ x → ({ s with mem := m } : State).byteAt (s.addr r.val) = s.getV r) ∨
    (4095 < s.i.toNat + x.val ∧ execStRegs x s = .fault (.dataRange s.firstOutside)) := by
  have hlen := length_valuesUpTo s x
  rcases storeAtI_cases s (s.valuesUpTo x) (valuesUpTo_ne_nil s x) with ⟨hin, m, hm, hb, _⟩ | ⟨hout, hf⟩
  · refine .inl ⟨by omega, m, hm, fun r hr => ?_⟩
    have hle : r.val ≤ x.val := hr
    have hk : s.addr r.val - s.addr 0 = r.val := by unfold State.addr; omega
    have hcond : s.addr 0 ≤ s.addr r.val ∧ s.addr r.val - s.addr 0 < (s.valuesUpTo x).length :=
      ⟨by unfold State.addr; omega, by omega⟩
    rw [hb, dif_pos hcond, getElem_valuesUpTo]
    congr 1
    exact Fin.ext hk
  · exact .inr ⟨by omega, hf⟩

/-- The two outcomes of `Fx33` (spec/43_index_memory.md R193). -/
theorem execLdB_cases (x : Reg) (s : State) :
    (s.i.toNat + 2 ≤ 4095 ∧ ∃ t, execLdB x s = .next t) ∨
    (4095 < s.i.toNat + 2 ∧ execLdB x s = .fault (.dataRange s.firstOutside)) := by
  have hlen : (bcdDigits (s.getV x)).length = 3 := rfl
  rcases storeAtI_cases s _ (bcdDigits_ne_nil (s.getV x)) with ⟨hin, m, hm, _⟩ | ⟨hout, hf⟩
  · exact .inl ⟨by omega, _, hm⟩
  · exact .inr ⟨by omega, hf⟩

/-- The two outcomes of a key test (spec/45_keys_timers.md R230, R231). -/
theorem skipOnKey_cases (x : Reg) (wanted : Bool) (s : State) :
    (¬ 15 < (s.getV x).toNat ∧ ∃ t, finish (skipOnKey x wanted s) = .next t) ∨
    (15 < (s.getV x).toNat ∧ finish (skipOnKey x wanted s) = .fault (.keyRange (s.getV x))) := by
  unfold skipOnKey
  split
  · next h =>
    have hkey : (s.getV x).toNat < 16 := h
    exact .inl ⟨by omega, _, rfl⟩
  · next h =>
    have hkey : ¬ (s.getV x).toNat < 16 := h
    exact .inr ⟨by omega, rfl⟩

/-- An instruction faults exactly as the table of R254 says, in the state it executes in. -/
theorem exec_fault_iff_raises (i : Instr) (s : State) (f : Fault) : exec i s = .fault f ↔ raises i s f := by
  cases i with
  | drw x y n =>
    refine (fault_iff_of_cases (c := 0 < n.val ∧ 4095 < s.i.toNat + (n.val - 1)) ?_ f).trans and_assoc
    rcases execDrw_cases x y n s with ⟨hin, t, ht, _⟩ | ⟨hpos, hout, hf⟩
    · exact .inl ⟨by omega, t, ht⟩
    · exact .inr ⟨⟨hpos, hout⟩, hf⟩
  | ldB x => exact fault_iff_of_cases ((execLdB_cases x s).imp_left fun ⟨hin, t, ht⟩ => ⟨by omega, t, ht⟩) f
  | stRegs x =>
    exact fault_iff_of_cases ((execStRegs_cases x s).imp_left fun ⟨hin, _, hm, _⟩ => ⟨by omega, _, hm⟩) f
  | ldRegs x =>
    exact fault_iff_of_cases ((execLdRegs_cases x s).imp_left fun ⟨hin, _, hv, _⟩ => ⟨by omega, _, hv⟩) f
  | skp x => exact fault_iff_of_cases (skipOnKey_cases x true s) f
  | sknp x => exact fault_iff_of_cases (skipOnKey_cases x false s) f
  | _ => exact iff_of_false (fun h => nomatch h) id

/-- The fetch fault belongs to the fetch: the execute phase raises no such fault (R254). -/
theorem execDecoded_ne_fetchRange (d : Decoded) (s : State) (p : PcVal) :
    execDecoded d s ≠ .fault (.fetchRange p) := by
  cases d with
  | unrecognised w => exact fun h => nomatch h
  | instr i =>
    intro h
    have hraises := (exec_fault_iff_raises i s _).1 h
    cases i <;> simp [raises] at hraises

theorem State.fetch_error_iff (s : State) (f : Fault) :
    s.fetch = .error f ↔ 4094 < s.pc.toNat ∧ f = .fetchRange s.pc := by
  by_cases h : s.pc.toNat ≤ 4094
  · rw [s.fetch_inside h]
    exact iff_of_false (fun hf => nomatch hf) fun hf => Nat.not_le_of_gt hf.1 h
  · have hout : 4094 < s.pc.toNat := by omega
    rw [s.fetch_outside hout]
    simp [hout, eq_comm]

/-! ### The obligations -/

/-- Settles O36: the fields of the word are its operands; the draw begins with the flag register at 0 and
writes it with nothing but 1; a sprite of no rows draws nothing. -/
theorem drawCompletesOrFaults : Obligations.DrawCompletesOrFaults := by
  intro s x y n
  refine ⟨decodeWord_drw x y n, fun hin => ?_, fun hpos hout => ?_⟩
  · have hclear : (s.setFlag 0).requestDraw.getV flagReg = 0 := (drawAt_start s).getV_flag
    rcases execDrw_cases x y n s with ⟨_, t, ht, hrows, hd⟩ | ⟨hpos, hout, _⟩
    · have hframe := execDrw_frame ht
      obtain ⟨⟨v, fb, heq⟩, _, hflag⟩ := hd
      refine ⟨t, ht, by rw [heq]; rfl, by rw [heq]; rfl, ?_, fun h0 => ?_, hframe.mono ?_⟩
      · exact hflag.symm.imp_left fun h => h.trans hclear
      · rw [h0] at hrows
        obtain rfl := Except.ok.inj hrows
        exact ⟨hclear, fun _ => rfl⟩
      · rintro it (hit | hit | hit | ⟨_, p, _, _, hit⟩)
        · exact .inl hit
        · exact .inr (.inr (.inl hit))
        · exact .inr (.inr (.inr hit))
        · exact .inr (.inl ⟨p, hit⟩)
    · unfold State.addr at hin
      omega
  · exact (exec_fault_iff_raises (.drw x y n) s _).2 ⟨hpos, hout, rfl⟩

/-- Settles O9: outside the memory the fetch faults, and nothing else raises its fault. -/
theorem fetchOutsideMemoryFaults : Obligations.FetchOutsideMemoryFaults := by
  refine ⟨fun s h => step_fault.2 (.inl (s.fetch_outside h)), fun s p h => ?_⟩
  rcases step_fault.1 h with hfetch | ⟨w, _, hexec⟩
  · obtain ⟨hout, hp⟩ := (s.fetch_error_iff _).1 hfetch
    exact ⟨hout, Fault.fetchRange.inj hp⟩
  · exact absurd hexec (execDecoded_ne_fetchRange _ _ p)

/-- Settles O14: a completed store lies inside the memory, so the two bytes at `pc` do, and they are the two
registers stored there. -/
theorem storeIsSeenByNextFetch : Obligations.StoreIsSeenByNextFetch := by
  intro s t x r q h hq hle hpc
  have hqx : q.val ≤ x.val := hle
  have hrx : r ≤ x := Nat.le_trans (by omega) hqx
  rcases execStRegs_cases x s with ⟨hin, m, hm, hb⟩ | ⟨_, hf⟩
  · obtain rfl := Host.Outcome.next.inj (hm.symm.trans h)
    have hnext : s.pc.toNat + 1 = s.addr q.val := by rw [hpc, hq]; rfl
    have hfetch : s.pc.toNat ≤ 4094 := by unfold State.addr at hnext; omega
    rw [← hb r hrx, ← hb q hle, ← hnext, ← hpc]
    exact State.fetch_inside _ hfetch
  · cases hf.symm.trans h

/-- Settles O8: by `State.fetch_inside`, which asks nothing of the parity of `pc`. -/
theorem fetchIsBigEndian : Obligations.FetchIsBigEndian :=
  fun s h => ⟨_, s.fetch_inside h, toNat_wordOfBytes _ _⟩

end Sys2Proof.Machine
end

section
/-! PROOF. Decode and encode agree: the word of an instruction decodes to it, and a word that decodes is the
word of what it decodes to (spec/30_encoding.md R91 to R95). -/

namespace Sys2Proof

open Laws.EncodedClass (fieldOp_wordA fieldOp_wordXK fieldOp_wordXYN fieldOp_wordX)

/-! ### Decode of encode -/

theorem decodeInstr_wordXYN_class8 (x y : Reg) (n : Fin 16) :
    decodeInstr (wordXYN 0x8 x y n) = decodeClass8 x y n.val := by
  have hop : 8 < 16 := by decide
  rw [decodeInstr, fieldOp_wordXYN _ x y n hop, fieldX_wordXYN _ x y n hop, fieldY_wordXYN _ x y n hop,
    fieldN_wordXYN _ x y n hop]
  rfl

theorem decodeInstr_wordX_classE (x : Reg) {low : Nat} (hlow : low < 256) :
    decodeInstr (wordX 0xE x low) = decodeClassE x low := by
  have hop : 14 < 16 := by decide
  rw [decodeInstr, fieldOp_wordX _ x low hop hlow, fieldX_wordX _ x low hop hlow, fieldLow_wordX _ x low hop hlow]
  rfl

theorem decodeInstr_wordX_classF (x : Reg) {low : Nat} (hlow : low < 256) :
    decodeInstr (wordX 0xF x low) = decodeClassF x low := by
  have hop : 15 < 16 := by decide
  rw [decodeInstr, fieldOp_wordX _ x low hop hlow, fieldX_wordX _ x low hop hlow, fieldLow_wordX _ x low hop hlow]
  rfl

/-- One case per format, and the classes 8, E and F apart; well-formedness is needed for format `A` only. -/
theorem decodeInstr_encode {i : Instr} (hi : i.wellFormed = true) : decodeInstr (encode i) = some i := by
  cases i with
  | nop | cls | ret => rfl
  | jp nnn | call nnn | ldI nnn =>
    have hn : nnn.toNat < 4096 := of_decide_eq_true hi
    rw [encode, decodeInstr, fieldOp_wordA _ nnn (by decide), fieldNnn_wordA _ nnn (by decide) hn]
    rfl
  | seImm x kk | sneImm x kk | ldImm x kk | addImm x kk | rnd x kk =>
    rw [encode, decodeInstr, fieldOp_wordXK _ x kk (by decide), fieldX_wordXK _ x kk (by decide),
      fieldKk_wordXK _ x kk (by decide)]
    rfl
  | seReg x y | sneReg x y =>
    rw [encode, decodeInstr, fieldOp_wordXYN _ x y _ (by decide), fieldX_wordXYN _ x y _ (by decide),
      fieldY_wordXYN _ x y _ (by decide), fieldN_wordXYN _ x y _ (by decide)]
    rfl
  | drw x y n => exact (decodeWord_instr _ _).1 (decodeWord_drw x y n)
  | ldReg x y | orReg x y | andReg x y | xorReg x y | addReg x y | subReg x y | shr x y | subn x y | shl x y =>
    exact decodeInstr_wordXYN_class8 x y _
  | skp x | sknp x => exact decodeInstr_wordX_classE x (by decide)
  | ldVxDt x | ldVxK x | ldDtVx x | ldStVx x | addI x | ldF x | ldB x | stRegs x | ldRegs x =>
    exact decodeInstr_wordX_classF x (by decide)

/-! ### A word is put together from its fields (R91, R92) -/

theorem wordA_fields {w : Word} {op : Nat} (h : fieldOp w = op) : wordA op (fieldNnn w) = w := by
  subst h
  apply BitVec.eq_of_toNat_eq
  simp only [wordA, fieldOp, fieldNnn, BitVec.toNat_ofNat]
  omega

theorem wordXK_fields {w : Word} {op : Nat} (h : fieldOp w = op) : wordXK op (fieldX w) (fieldKk w) = w := by
  subst h
  apply BitVec.eq_of_toNat_eq
  simp only [wordXK, fieldOp, fieldX, fieldKk, BitVec.toNat_ofNat]
  omega

theorem wordXYN_fields {w : Word} {op : Nat} {n : Fin 16} (h : fieldOp w = op) (hn : fieldN w = n) :
    wordXYN op (fieldX w) (fieldY w) n = w := by
  subst h hn
  apply BitVec.eq_of_toNat_eq
  simp only [wordXYN, fieldOp, fieldX, fieldY, fieldN, BitVec.toNat_ofNat]
  omega

theorem wordX_fields {w : Word} {op low : Nat} (h : fieldOp w = op) (hlow : fieldLow w = low) :
    wordX op (fieldX w) low = w := by
  subst h hlow
  apply BitVec.eq_of_toNat_eq
  simp only [wordX, fieldOp, fieldX, fieldLow, BitVec.toNat_ofNat]
  omega

/-! ### Encode of decode, class by class -/

theorem encode_of_decodeClass0 {w : Word} {i : Instr} (h : decodeClass0 w = some i) : encode i = w := by
  unfold decodeClass0 at h
  repeat' split at h
  all_goals cases h <;> exact Eq.symm ‹_›

theorem encode_of_decodeClass8 {w : Word} {i : Instr} (hop : fieldOp w = 0x8)
    (h : decodeClass8 (fieldX w) (fieldY w) (fieldN w).val = some i) : encode i = w := by
  unfold decodeClass8 at h
  split at h
  case h_10 => cases h
  all_goals
    cases h
    exact wordXYN_fields hop (Fin.ext ‹_›)

theorem encode_of_decodeClassE {w : Word} {i : Instr} (hop : fieldOp w = 0xE)
    (h : decodeClassE (fieldX w) (fieldLow w) = some i) : encode i = w := by
  unfold decodeClassE at h
  split at h <;> cases h <;> exact wordX_fields hop ‹_›

theorem encode_of_decodeClassF {w : Word} {i : Instr} (hop : fieldOp w = 0xF)
    (h : decodeClassF (fieldX w) (fieldLow w) = some i) : encode i = w := by
  unfold decodeClassF at h
  split at h <;> cases h <;> exact wordX_fields hop ‹_›

theorem encode_of_decodeInstr {w : Word} {i : Instr} (h : decodeInstr w = some i) : encode i = w := by
  unfold decodeInstr at h
  split at h <;> rename_i hop
  case h_1 => exact encode_of_decodeClass0 h
  case h_9 => exact encode_of_decodeClass8 hop h
  case h_14 => exact encode_of_decodeClassE hop h
  case h_15 => exact encode_of_decodeClassF hop h
  case h_2 | h_3 | h_11 => cases h; exact wordA_fields hop
  case h_4 | h_5 | h_7 | h_8 | h_12 => cases h; exact wordXK_fields hop
  case h_6 | h_10 =>
    split at h <;> cases h
    exact wordXYN_fields hop ‹_›
  case h_13 => cases h; exact wordXYN_fields hop rfl
  case h_16 => cases h

/-! ### The obligations -/

/-- Settles O2: one case per format, by the fields of its words. -/
theorem decodeOfEncode : Obligations.DecodeOfEncode :=
  fun i hi => (decodeWord_instr (encode i) i).2 (decodeInstr_encode hi)

/-- Settles O3: every class puts its word together again from the fields it read. -/
theorem encodeOfDecoded : Obligations.EncodeOfDecoded := fun w i h =>
  have hdec : decodeInstr w = some i := (decodeWord_instr w i).1 h
  ⟨encode_of_decodeInstr hdec, decodeInstr_wellFormed hdec⟩

/-- Settles O1: closed words, each decoded by evaluation. -/
theorem specWordsDecode : Obligations.SpecWordsDecode := by
  unfold Obligations.SpecWordsDecode
  decide

end Sys2Proof
end

section
/-! PROOF. The decode procedure and the opcode map (spec/30_encoding.md R94 to R97): which words decode to
nothing, which bits of a word its class compares, and that a word decodes to the instruction of a row exactly
when these bits are those of the row. -/

namespace Sys2Proof

open Laws.EncodedClass (fieldOp_wordA fieldOp_wordXK fieldOp_wordXYN fieldOp_wordX)

/-! ### The words that decode to nothing, class by class (R97) -/

theorem fieldOp_lt (w : Word) : fieldOp w < 16 := by
  have hw : w.toNat < 65536 := w.isLt
  unfold fieldOp
  omega

theorem decodeClass0_eq_none_iff (w : Word) :
    decodeClass0 w = none ↔ w ≠ 0x0000 ∧ w ≠ 0x00E0 ∧ w ≠ 0x00EE := by
  unfold decodeClass0
  split
  case isTrue h => exact iff_of_false (Option.some_ne_none _) fun hne => hne.1 h
  split
  case isTrue h => exact iff_of_false (Option.some_ne_none _) fun hne => hne.2.1 h
  split
  case isTrue h => exact iff_of_false (Option.some_ne_none _) fun hne => hne.2.2 h
  exact iff_of_true rfl ⟨‹_›, ‹_›, ‹_›⟩

theorem decodeClass8_eq_none_iff (x y : Reg) {n : Nat} (hn : n < 16) :
    decodeClass8 x y n = none ↔ n ∈ [0x8, 0x9, 0xA, 0xB, 0xC, 0xD, 0xF] := by
  have hcases : n = 0 ∨ n = 1 ∨ n = 2 ∨ n = 3 ∨ n = 4 ∨ n = 5 ∨ n = 6 ∨ n = 7 ∨ n = 8 ∨ n = 9 ∨ n = 10 ∨
      n = 11 ∨ n = 12 ∨ n = 13 ∨ n = 14 ∨ n = 15 := by omega
  rcases hcases with rfl | rfl | rfl | rfl | rfl | rfl | rfl | rfl | rfl | rfl | rfl | rfl | rfl | rfl | rfl | rfl
  all_goals simp [decodeClass8]

theorem decodeClassE_eq_none_iff (x : Reg) (kk : Nat) : decodeClassE x kk = none ↔ kk ∉ [0x9E, 0xA1] := by
  unfold decodeClassE
  split <;> simp_all

theorem decodeClassF_eq_none_iff (x : Reg) (kk : Nat) :
    decodeClassF x kk = none ↔ kk ∉ [0x07, 0x0A, 0x15, 0x18, 0x1E, 0x29, 0x33, 0x55, 0x65] := by
  unfold decodeClassF
  split <;> simp_all

/-! ### The bits a row compares (R94) -/

/-- The mask of the rows that compare the class and the low `k` bits: `0xF000` and `k` ones. -/
def rowMask (k : Nat) : Word := BitVec.ofNat 16 (0xF000 + (2 ^ k - 1))

/-- How many low bits of a word are compared beside its class `op` (R94): all of them in class 0, the low
nibble in the classes 5, 8 and 9, the low byte in the classes E and F. -/
def comparedBits : Nat → Nat
  | 0x0 => 12
  | 0x5 | 0x8 | 0x9 => 4
  | 0xE | 0xF => 8
  | _ => 0

theorem toNat_and_rowMask (w : Word) {k : Nat} (hk : k ≤ 12) :
    (w &&& rowMask k).toNat = fieldOp w * 4096 + w.toNat % 2 ^ k := by
  have hpow : 2 ^ k ≤ 2 ^ 12 := Nat.pow_le_pow_right (by decide) hk
  have hpos : 0 < 2 ^ k := Nat.two_pow_pos k
  have hmask : (rowMask k).toNat = 0xF000 + (2 ^ k - 1) := by
    rw [rowMask, BitVec.toNat_ofNat]
    omega
  have hhigh : (w.toNat &&& (rowMask k).toNat) / 2 ^ 12 = fieldOp w := by
    have hdiv : (rowMask k).toNat / 2 ^ 12 = 2 ^ 4 - 1 := by omega
    rw [Nat.and_div_two_pow, hdiv, Nat.and_two_pow_sub_one_eq_mod, fieldOp]
    exact Nat.mod_eq_of_lt (fieldOp_lt w)
  have hlow : (w.toNat &&& (rowMask k).toNat) % 2 ^ 12 = w.toNat % 2 ^ k := by
    have hmod : (rowMask k).toNat % 2 ^ 12 = 2 ^ k - 1 := by omega
    rw [Nat.and_mod_two_pow, hmod, Nat.and_two_pow_sub_one_eq_mod]
    exact Nat.mod_mod_of_dvd _ (Nat.pow_dvd_pow 2 hk)
  rw [BitVec.toNat_and]
  omega

theorem and_rowMask (w : Word) {k : Nat} (hk : k ≤ 12) :
    w &&& rowMask k = BitVec.ofNat 16 (fieldOp w * 4096 + w.toNat % 2 ^ k) := by
  rw [← toNat_and_rowMask w hk, BitVec.ofNat_toNat, BitVec.setWidth_eq]

theorem and_rowMask_eq_iff (w v : Word) {k : Nat} (hk : k ≤ 12) :
    w &&& rowMask k = v &&& rowMask k ↔ fieldOp w = fieldOp v ∧ w.toNat % 2 ^ k = v.toNat % 2 ^ k := by
  have hpow : 2 ^ k ≤ 2 ^ 12 := Nat.pow_le_pow_right (by decide) hk
  have hpos : 0 < 2 ^ k := Nat.two_pow_pos k
  have hw : w.toNat % 2 ^ k < 2 ^ k := Nat.mod_lt _ hpos
  have hv : v.toNat % 2 ^ k < 2 ^ k := Nat.mod_lt _ hpos
  rw [← BitVec.toNat_inj, toNat_and_rowMask w hk, toNat_and_rowMask v hk]
  omega

/-! ### The row a word decodes to depends on these bits alone -/

theorem row_decodeClass8_congr (x y x' y' : Reg) (n : Nat) :
    (decodeClass8 x y n).map Instr.row = (decodeClass8 x' y' n).map Instr.row := by
  unfold decodeClass8
  split <;> rfl

theorem row_decodeClassE_congr (x x' : Reg) (kk : Nat) :
    (decodeClassE x kk).map Instr.row = (decodeClassE x' kk).map Instr.row := by
  unfold decodeClassE
  split <;> rfl

theorem row_decodeClassF_congr (x x' : Reg) (kk : Nat) :
    (decodeClassF x kk).map Instr.row = (decodeClassF x' kk).map Instr.row := by
  unfold decodeClassF
  split <;> rfl

/-- Words that agree on the compared bits decode to the same row, or both to none. -/
theorem row_decodeInstr_congr {w v : Word} (hop : fieldOp w = fieldOp v)
    (hlow : w.toNat % 2 ^ comparedBits (fieldOp v) = v.toNat % 2 ^ comparedBits (fieldOp v)) :
    (decodeInstr w).map Instr.row = (decodeInstr v).map Instr.row := by
  have hlt := fieldOp_lt v
  unfold decodeInstr
  rw [hop]
  generalize hv : fieldOp v = op at hlow hlt
  have hclass : op = 0x0 ∨ (op = 0x5 ∨ op = 0x9) ∨ op = 0x8 ∨ op = 0xE ∨ op = 0xF ∨
      (op = 0x1 ∨ op = 0x2 ∨ op = 0x3 ∨ op = 0x4 ∨ op = 0x6 ∨ op = 0x7 ∨ op = 0xA ∨ op = 0xB ∨ op = 0xC ∨
        op = 0xD) := by omega
  obtain rfl | hnibble | rfl | rfl | rfl | hrest := hclass
  · have hwv : w = v := by
      refine BitVec.eq_of_toNat_eq ?_
      simp only [fieldOp, comparedBits] at hop hlow
      omega
    rw [hwv]
  · obtain rfl | rfl := hnibble
    all_goals
      have hn : fieldN w = fieldN v := Fin.ext hlow
      simp only [hn]
      split <;> rfl
  · have hn : fieldN w = fieldN v := Fin.ext hlow
    simp only [hn]
    apply row_decodeClass8_congr
  · have hkk : fieldLow w = fieldLow v := hlow
    simp only [hkk]
    apply row_decodeClassE_congr
  · have hkk : fieldLow w = fieldLow v := hlow
    simp only [hkk]
    apply row_decodeClassF_congr
  · rcases hrest with rfl | rfl | rfl | rfl | rfl | rfl | rfl | rfl | rfl | rfl <;> rfl

/-! ### A word that matches a row decodes to an instruction of it -/

theorem comparedBits_le (op : Nat) : comparedBits op ≤ 12 := by
  unfold comparedBits
  split <;> decide

/-- Each row of the map compares the bits of its class, and its pattern has no others. -/
theorem opcodeMap_masks : ∀ r ∈ opcodeMap,
    r.mask = rowMask (comparedBits (fieldOp r.pattern)) ∧ r.pattern &&& r.mask = r.pattern := by decide

theorem opcodeMap_patterns : ∀ r ∈ opcodeMap, (decodeInstr r.pattern).map Instr.row = some r.number := by decide

theorem row_decodeInstr_of_match {w : Word} {r : OpcodeRow} (hr : r ∈ opcodeMap) (h : w &&& r.mask = r.pattern) :
    (decodeInstr w).map Instr.row = some r.number := by
  obtain ⟨hmask, hpat⟩ := opcodeMap_masks r hr
  rw [← hpat, hmask] at h
  obtain ⟨hop, hlow⟩ := (and_rowMask_eq_iff _ _ (comparedBits_le _)).1 h
  rw [row_decodeInstr_congr hop hlow, opcodeMap_patterns r hr]

/-! ### A word that decodes matches the row of its instruction -/

/-- The row of the opcode map with the number `k`. -/
def rowNumbered (k : Nat) : OpcodeRow := (opcodeMap.find? (·.number == k)).getD ⟨0, 0, 0⟩

/-- No two rows of the map have the same number. -/
theorem rowNumbered_number : ∀ r ∈ opcodeMap, rowNumbered r.number = r := by decide

theorem rowNumbered_mem : ∀ k < 35, 0 < k → rowNumbered k ∈ opcodeMap := by decide

theorem Instr.row_bounds (i : Instr) : i.row < 35 ∧ 0 < i.row := by
  cases i <;> exact ⟨Nat.le_of_ble_eq_true rfl, Nat.le_of_ble_eq_true rfl⟩

theorem and_classMask {w : Word} {op : Nat} (hop : fieldOp w = op) :
    w &&& rowMask 0 = BitVec.ofNat 16 (op * 4096) := by
  rw [and_rowMask w (by decide), hop, Nat.pow_zero, Nat.mod_one, Nat.add_zero]

theorem and_nibbleMask {w : Word} {op : Nat} {n : Fin 16} (hop : fieldOp w = op) (hn : fieldN w = n) :
    w &&& rowMask 4 = BitVec.ofNat 16 (op * 4096 + n.val) := by
  rw [and_rowMask w (by decide), hop, ← hn]
  rfl

theorem and_byteMask {w : Word} {op low : Nat} (hop : fieldOp w = op) (hlow : fieldLow w = low) :
    w &&& rowMask 8 = BitVec.ofNat 16 (op * 4096 + low) := by
  rw [and_rowMask w (by decide), hop, ← hlow]
  rfl

/-- One case per way of comparing: the full word, the class, the low nibble, the low byte. -/
theorem encode_and_mask (i : Instr) :
    encode i &&& (rowNumbered i.row).mask = (rowNumbered i.row).pattern := by
  cases i with
  | nop | cls | ret => rfl
  | jp nnn | call nnn | ldI nnn => exact and_classMask (fieldOp_wordA _ nnn (by decide))
  | seImm x kk | sneImm x kk | ldImm x kk | addImm x kk | rnd x kk =>
    exact and_classMask (fieldOp_wordXK _ x kk (by decide))
  | drw x y n => exact and_classMask (fieldOp_wordXYN _ x y n (by decide))
  | seReg x y | sneReg x y | ldReg x y | orReg x y | andReg x y | xorReg x y | addReg x y | subReg x y | shr x y
  | subn x y | shl x y =>
    exact and_nibbleMask (fieldOp_wordXYN _ x y _ (by decide)) (fieldN_wordXYN _ x y _ (by decide))
  | skp x | sknp x | ldVxDt x | ldVxK x | ldDtVx x | ldStVx x | addI x | ldF x | ldB x | stRegs x | ldRegs x =>
    exact and_byteMask (fieldOp_wordX _ x _ (by decide) (by decide)) (fieldLow_wordX _ x _ (by decide) (by decide))

theorem match_of_decodeInstr {w : Word} {i : Instr} (h : decodeInstr w = some i) :
    w &&& (rowNumbered i.row).mask = (rowNumbered i.row).pattern :=
  encode_of_decodeInstr h ▸ encode_and_mask i

theorem decodeInstr_eq_none_of_no_match {w : Word} (h : ∀ r ∈ opcodeMap, w &&& r.mask ≠ r.pattern) :
    decodeInstr w = none := by
  refine Option.eq_none_iff_forall_ne_some.2 fun i hi => ?_
  obtain ⟨hlt, hpos⟩ := i.row_bounds
  exact h _ (rowNumbered_mem _ hlt hpos) (match_of_decodeInstr hi)

/-! ### The obligations -/

/-- Settles O6: the classes 0, 8, E and F by the lemmas above, 5 and 9 by the low nibble; class B decodes to
nothing, and each of the others to an instruction. -/
theorem unrecognisedWordsByClass : Obligations.UnrecognisedWordsByClass := by
  intro w op n kk
  have hlt : op < 16 := fieldOp_lt w
  have hop : fieldOp w = op := rfl
  have hn : fieldN w = 0 ↔ n = 0 := Fin.ext_iff
  have h0 := decodeClass0_eq_none_iff w
  have h8 : decodeClass8 (fieldX w) (fieldY w) (fieldN w).val = none ↔ n ∈ _ :=
    decodeClass8_eq_none_iff _ _ (fieldN w).isLt
  have hE : decodeClassE (fieldX w) (fieldLow w) = none ↔ kk ∉ _ := decodeClassE_eq_none_iff _ _
  have hF : decodeClassF (fieldX w) (fieldLow w) = none ↔ kk ∉ _ := decodeClassF_eq_none_iff _ _
  rw [decodeWord_unrecognised, and_iff_left rfl, decodeInstr, hop]
  clear_value op
  have hclass : op = 0x0 ∨ op = 0x8 ∨ op = 0xE ∨ op = 0xF ∨
      (op = 0x1 ∨ op = 0x2 ∨ op = 0x3 ∨ op = 0x4 ∨ op = 0x5 ∨ op = 0x6 ∨ op = 0x7 ∨ op = 0x9 ∨ op = 0xA ∨
        op = 0xB ∨ op = 0xC ∨ op = 0xD) := by omega
  obtain rfl | rfl | rfl | rfl | hrest := hclass
  · simpa using h0
  · simpa using h8
  · simpa using hE
  · simpa using hF
  · rcases hrest with rfl | rfl | rfl | rfl | rfl | rfl | rfl | rfl | rfl | rfl | rfl | rfl
    all_goals simp [hn]

/-- Settles O4: a decoded word matches the row of its instruction, which its number tells; a word that matches
a row shares the bits its class compares with the pattern of the row. -/
theorem decoderFollowsOpcodeMap : Obligations.DecoderFollowsOpcodeMap := by
  intro w r hr
  simp only [decodeWord_instr]
  refine ⟨fun ⟨i, hi, hrow⟩ => ?_, fun h => ?_⟩
  · have hmatch := match_of_decodeInstr hi
    rwa [hrow, rowNumbered_number r hr] at hmatch
  · exact Option.map_eq_some_iff.1 (row_decodeInstr_of_match hr h)

/-- Two rows of the map differ in a bit both compare. -/
theorem opcodeMap_apart : ∀ r ∈ opcodeMap, ∀ q ∈ opcodeMap,
    r.pattern &&& q.mask = q.pattern &&& r.mask → r = q := by decide

/-- Settles O5: two rows a word matches agree on the bits both compare; no two rows of the map do. -/
theorem opcodeRowsDisjoint : Obligations.OpcodeRowsDisjoint := by
  intro w r q hr hq hwr hwq
  refine opcodeMap_apart r hr q hq ?_
  rw [← hwr, ← hwq, BitVec.and_assoc, BitVec.and_assoc, BitVec.and_comm r.mask]

end Sys2Proof

namespace Sys2Proof.Machine

theorem step_of_unrecognised {s : State} {w : Word} (hw : s.fetch = .ok w) (hnone : decodeInstr w = none) :
    step s = .next (s.beginStep.warn w).endStep := by
  rw [step_of_fetch hw, (decodeWord_unrecognised w w).2 ⟨hnone, rfl⟩]
  rfl

/-- The fetch advance, the warning and the tick, and nothing else (R96). -/
theorem State.warned_frame (s : State) (w : Word) :
    ChangesOnly (fun it => it = .pc ∨ it = .warning ∨ it = .drawPulse ∨ it = .dt ∨ it = .st ∨
      it = .soundRequested ∨ it = .soundPulse ∨ it = .inputs ∨ it = .inputIndex)
      s (s.beginStep.warn w).endStep := by
  intro it hit
  cases it with
  | pc | warning | drawPulse | dt | st | soundRequested | soundPulse | inputs | inputIndex => simp at hit
  | _ => rfl

/-- Settles O7: a word that matches no row decodes to nothing, so the warning is all its execute phase does. -/
theorem unrecognisedWordIsWarnedNoOp : Obligations.UnrecognisedWordIsWarnedNoOp := by
  intro s w hw hno
  have hstep := step_of_unrecognised hw (decodeInstr_eq_none_of_no_match hno)
  exact ⟨_, hstep, rfl, rfl, rfl, tickDown_toNat s.dt, tickDown_toNat s.st, rfl, Bool.false_or _,
    s.warned_frame w⟩

end Sys2Proof.Machine
end

section
/-! PROOF. The phases of a step around the execute phase, and the jump to itself
(spec/40_step_cycle.md R120 to R127). -/

namespace Sys2Proof.Machine

/-! ### What the phases change -/

/-- The fetch advance and the cleared outputs (R121; spec/10_state.md R35). -/
theorem State.beginStep_frame (s : State) :
    ChangesOnly (fun it => it = .pc ∨ it = .warning ∨ it = .drawPulse ∨ it = .soundPulse) s s.beginStep := by
  intro it hit
  cases it with
  | pc | warning | drawPulse | soundPulse => simp at hit
  | _ => rfl

/-- The tick and the sample used up (R124). -/
theorem State.endStep_frame (u : State) :
    ChangesOnly (fun it => it = .dt ∨ it = .st ∨ it = .soundRequested ∨ it = .soundPulse ∨
      it = .inputs ∨ it = .inputIndex) u u.endStep := by
  intro it hit
  cases it with
  | dt | st | soundRequested | soundPulse | inputs | inputIndex => simp at hit
  | _ => rfl

/-- An item that holds the same at the end need not be named, even if it changed in between. -/
theorem ChangesOnly.of_same {may : Item → Prop} {x : Item} {s t : State}
    (h : ChangesOnly (fun it => it = x ∨ may it) s t) (hx : x.same s t) : ChangesOnly may s t := by
  intro it hit
  by_cases heq : it = x
  · exact heq ▸ hx
  · exact h it (not_or_intro heq hit)

theorem tickDown_eq_ite (b : TimerVal) : tickDown b = if b.toNat > 0 then b - 1 else b := by
  by_cases h : b = 0
  · subst h
    rfl
  · have hpos : b.toNat > 0 := (bne_zero_iff_toNat_pos b).1 (bne_iff_ne.2 h)
    rw [tickDown, if_neg h, if_pos hpos]

/-- The sound pulse is the tick's: at the end of the execute phase it is still cleared. -/
theorem execDecoded_soundPulse {d : Decoded} {s u : State} (h : execDecoded d s.beginStep = .next u) :
    u.soundPulse = false :=
  execDecoded_keeps (it := .soundPulse) h (fun _ _ => not_mayWrite_of_phase (by simp)) (by simp)

/-! ### The jump to itself -/

/-- A fetched jump to itself lies inside the memory, so its address fits the field `nnn` (R93, R142). -/
theorem step_of_selfJump {s : State} (h : s.fetch = .ok (wordA 0x1 s.pc)) :
    step s = .next (s.beginStep.setPc s.pc).endStep := by
  have hpc : s.pc.toNat < 4096 := Nat.lt_of_le_of_lt (State.fetch_ok h) (by decide)
  have hdecode : decodeWord (wordA 0x1 s.pc) = .instr (.jp s.pc) :=
    decodeOfEncode (.jp s.pc) (decide_eq_true hpc)
  rw [step_of_fetch h, hdecode]
  rfl

/-- The jump undoes the fetch advance, so `pc` is not among the items changed. -/
theorem State.selfJump_frame (s : State) :
    ChangesOnly (fun it => it = .dt ∨ it = .st ∨ it = .soundRequested ∨ it = .warning ∨ it = .drawPulse ∨
      it = .soundPulse ∨ it = .inputs ∨ it = .inputIndex) s (s.beginStep.setPc s.pc).endStep := by
  refine ChangesOnly.of_same (x := .pc) ?_ rfl
  have hbegin := s.beginStep_frame
  have hjump := s.beginStep.setPc_frame s.pc
  have hend := (s.beginStep.setPc s.pc).endStep_frame
  exact (hbegin.mono (by grind)).trans ((hjump.mono (by grind)).trans (hend.mono (by grind)))

/-! ### The obligations -/

/-- Settles O15: the step is fetch advance, jump back and tick. -/
theorem selfJumpOnlyCountsDown : Obligations.SelfJumpOnlyCountsDown := by
  intro s h
  have hsound : (s.st != 0) = decide (0 < s.st.toNat) := by
    rw [Bool.eq_iff_iff, bne_zero_iff_toNat_pos, decide_eq_true_iff]
  exact ⟨_, step_of_selfJump h, rfl, tickDown_toNat s.dt, tickDown_toNat s.st,
    congrArg (s.soundRequested || ·) hsound, s.selfJump_frame⟩

/-- Settles O10: the fetched word is decoded and run, and each phase around it has its frame. -/
theorem stepRunsDecodedInstruction : Obligations.StepRunsDecodedInstruction := by
  refine ⟨fun s w i hw hdecode _ => ?_, fun s => ⟨rfl, rfl, rfl, rfl, s.beginStep_frame⟩,
    fun u => ⟨rfl, rfl, u.endStep_frame⟩⟩
  rw [step_of_fetch hw, hdecode]
  rfl

/-- Settles O11: the step ends with the tick of the state `u` the execute phase left, whose sound pulse is
still cleared. -/
theorem tickFollowsExecute : Obligations.TickFollowsExecute := by
  intro s u w hw hu
  have hstep : step s = .next u.endStep := step_next.2 ⟨w, u, hw, hu, rfl⟩
  refine ⟨_, hstep, tickDown_eq_ite u.dt, tickDown_eq_ite u.st, fun hpos => ?_, fun hzero => ?_⟩
  · rw [State.endStep_soundRequested, State.endStep_soundPulse, (bne_zero_iff_toNat_pos u.st).2 hpos]
    simp
  · rw [State.endStep_soundRequested, State.endStep_soundPulse, hzero, execDecoded_soundPulse hu]
    simp

end Sys2Proof.Machine
end

section
/-! PROOF. Control flow (spec/41_flow.md): what a push and a pop of the return-address stack do when it has
room or entries and when it has not, where a skip leaves `pc`, and the instructions made of them. -/

namespace Sys2Proof.Machine

/-! ### The return-address stack (spec/10_state.md R26) -/

theorem State.pushPc_of_not_full {s : State} (h : s.sp.val < 32) :
    s.pushPc.sp.val = s.sp.val + 1 ∧ s.pushPc.stack = s.stack.set s.sp.val s.pc h := by
  rcases s.pushPc_cases with ⟨_, hpush⟩ | ⟨hfull, _⟩
  · rw [hpush]
    exact ⟨rfl, rfl⟩
  · omega

theorem State.pushPc_of_full {s : State} (h : s.sp.val = 32) : s.pushPc = s := by
  rcases s.pushPc_cases with ⟨hlt, _⟩ | ⟨_, hpush⟩
  · exact absurd h (Nat.ne_of_lt hlt)
  · exact hpush

theorem State.popPc_of_nonempty {s : State} (h : 0 < s.sp.val) :
    s.popPc.sp.val + 1 = s.sp.val ∧ s.stack[s.popPc.sp.val]? = some s.popPc.pc := by
  rcases s.popPc_cases with ⟨_, _, hk, hpop⟩ | ⟨hempty, _⟩
  · rw [hpop]
    exact ⟨Nat.sub_add_cancel h, Vector.getElem?_eq_getElem hk⟩
  · omega

theorem State.popPc_of_empty {s : State} (h : s.sp.val = 0) : s.popPc = s := by
  rcases s.popPc_cases with ⟨hpos, _⟩ | ⟨_, hpop⟩
  · omega
  · exact hpop

/-- A pop at the depth a push left, the stack as it left it, gives back the pushed address and the depth
before. -/
theorem State.popPc_after_pushPc {s u : State} (h : s.sp.val < 32) (hsp : u.sp = s.pushPc.sp)
    (hstack : u.stack = s.pushPc.stack) : u.popPc.pc = s.pc ∧ u.popPc.sp = s.sp := by
  obtain ⟨hdepth, hentry⟩ := State.pushPc_of_not_full h
  have hu : u.sp.val = s.sp.val + 1 := hsp ▸ hdepth
  obtain ⟨hback, htop⟩ := State.popPc_of_nonempty (s := u) (by omega)
  have hpop : u.popPc.sp.val = s.sp.val := by omega
  rw [hstack, hentry, hpop, Vector.getElem?_set_self] at htop
  exact ⟨(Option.some.inj htop).symm, Fin.ext hpop⟩

/-! ### Skips (spec/41_flow.md R148) -/

/-- A skip on a condition `p`, which the claim may state as an equivalent `q`. -/
theorem State.skipIf_pc_toNat (s : State) {p q : Prop} [Decidable p] [Decidable q] (h : p ↔ q) :
    (s.skipIf (decide p)).pc.toNat = if q then (s.pc.toNat + 2) % 65536 else s.pc.toNat := by
  rw [s.skipIf_eq]
  by_cases hp : p
  · simp [hp, h.1 hp]
  · simp [hp, mt h.2 hp]

/-- What R144 to R147 share: the instruction is a skip on its comparison. -/
theorem exec_skips {s : State} {i : Instr} {p q : Prop} [Decidable p] [Decidable q]
    (hexec : exec i s = .next (s.skipIf (decide p))) (h : p ↔ q) :
    ∃ t, exec i s = .next t ∧
      t.pc.toNat = (if q then (s.pc.toNat + 2) % 65536 else s.pc.toNat) ∧
      ChangesOnly (fun it => it = .pc) s t :=
  ⟨_, hexec, s.skipIf_pc_toNat h, s.skipIf_frame _⟩

/-! ### The obligations -/

/-- Settles O21: the `RET` pops what the `CALL` pushed; a full stack has its 32nd entry on top. -/
theorem callThenReturn : Obligations.CallThenReturn := by
  intro s t u nnn hcall hsp hstack
  obtain rfl : s.pushPc.setPc nnn = t := Host.Outcome.next.inj hcall
  refine ⟨u.popPc, rfl, fun hroom => State.popPc_after_pushPc hroom hsp hstack, fun hfull => ?_⟩
  rw [State.setPc_sp, State.pushPc_of_full hfull] at hsp
  rw [State.setPc_stack, State.pushPc_of_full hfull] at hstack
  have hu : u.sp.val = 32 := hsp ▸ hfull
  obtain ⟨hback, htop⟩ := State.popPc_of_nonempty (s := u) (by omega)
  have hpop : u.popPc.sp.val = 31 := by omega
  rw [hstack, hpop] at htop
  exact ⟨htop, hpop⟩

/-- Settles O16: the execute phase is the identity, so the step is fetch advance and tick. -/
theorem nopHasNoEffect : Obligations.NopHasNoEffect := by
  have hdecode : decodeWord 0x0000 = .instr .nop := decodeOfEncode .nop rfl
  refine ⟨hdecode, fun s => ⟨s, rfl, ChangesOnly.refl _ s⟩, fun s hw => ?_⟩
  have hstep : step s = .next s.beginStep.endStep := by
    rw [step_of_fetch hw, hdecode]
    rfl
  exact ⟨_, hstep, rfl, rfl, tickDown_toNat s.dt, tickDown_toNat s.st⟩

/-- Settles O17: by the two cases of a pop. -/
theorem returnPopsOrFallsThrough : Obligations.ReturnPopsOrFallsThrough := by
  refine ⟨decodeOfEncode .ret rfl, fun s => ⟨fun hpos => ?_, fun hempty => ?_⟩⟩
  · obtain ⟨hback, htop⟩ := State.popPc_of_nonempty hpos
    exact ⟨s.popPc, rfl, hback, htop, s.popPc_frame⟩
  · refine ⟨s.popPc, rfl, ?_⟩
    rw [State.popPc_of_empty hempty]
    exact ChangesOnly.refl _ s

/-- Settles O18: a write of `pc` and no more, whatever the target. -/
theorem jumpSetsPc : Obligations.JumpSetsPc := fun s nnn =>
  ⟨fun hn => decodeOfEncode (.jp nnn) (decide_eq_true hn), s.setPc nnn, rfl, rfl, s.setPc_frame nnn⟩

/-- Settles O19: by the two cases of a push, with a jump after either. -/
theorem callPushesUnlessFull : Obligations.CallPushesUnlessFull := by
  intro s nnn
  refine ⟨fun hn => decodeOfEncode (.call nnn) (decide_eq_true hn), fun hroom => ?_, fun hfull => ?_⟩
  · obtain ⟨hdepth, hentry⟩ := State.pushPc_of_not_full hroom
    have htop : s.pushPc.stack[s.sp.val]? = some s.pc := by rw [hentry, Vector.getElem?_set_self]
    exact ⟨s.pushPc.setPc nnn, rfl, rfl, hdepth, htop,
      (s.pushPc_frame_at_sp.mono fun _ => .inr).trans ((s.pushPc.setPc_frame nnn).mono fun _ => .inl)⟩
  · refine ⟨s.pushPc.setPc nnn, rfl, rfl, ?_⟩
    rw [State.pushPc_of_full hfull]
    exact s.setPc_frame nnn

/-- Settles O20: two registers, or a register and a byte, are equal exactly when their numbers are. -/
theorem skipsCompareAndMovePc : Obligations.SkipsCompareAndMovePc := fun s x y kk =>
  have himm : s.getV x = kk ↔ (s.getV x).toNat = kk.toNat := BitVec.toNat_inj.symm
  have hreg : s.getV x = s.getV y ↔ (s.getV x).toNat = (s.getV y).toNat := BitVec.toNat_inj.symm
  ⟨⟨decodeOfEncode (.seImm x kk) rfl, exec_skips rfl himm⟩,
    ⟨decodeOfEncode (.sneImm x kk) rfl, exec_skips rfl (not_congr himm)⟩,
    ⟨decodeOfEncode (.seReg x y) rfl, exec_skips rfl hreg⟩,
    ⟨decodeOfEncode (.sneReg x y) rfl, exec_skips rfl (not_congr hreg)⟩⟩

end Sys2Proof.Machine
end

section
/-! PROOF. Registers and arithmetic (spec/42_alu.md): the flags as numbers, a register after the one write
or the two writes of an ALU operation, and the instructions made of these. -/

namespace Sys2Proof.Machine

/-! ### The flags and the arithmetic of registers as numbers (spec/10_state.md R22) -/

theorem toNat_greaterFlag (a b : RegVal) : (greaterFlag a b).toNat = if a.toNat > b.toNat then 1 else 0 := by
  by_cases h : a.toNat > b.toNat <;> simp [greaterFlag, flagByte, h]

theorem carryFlag_eq_ite (a b : RegVal) : carryFlag a b = if a.toNat + b.toNat > 255 then 1 else 0 := by
  simp only [carryFlag, flagByte, decide_eq_true_eq]

theorem toNat_lowBitFlag (a : RegVal) : (lowBitFlag a).toNat = a.toNat % 2 := by
  rw [lowBitFlag, BitVec.toNat_and]
  exact Nat.and_one_is_mod _

theorem toNat_highBitFlag (a : RegVal) : (highBitFlag a).toNat = a.toNat / 128 := by
  have ha := toNat_regVal a
  have hshift : (a >>> 7).toNat = a.toNat / 128 := by
    rw [BitVec.toNat_ushiftRight, Nat.shiftRight_eq_div_pow]
  have hflag : (highBitFlag a).toNat = (a >>> 7).toNat % 2 := toNat_lowBitFlag (a >>> 7)
  omega

theorem toNat_regVal_sub (a b : RegVal) : (a - b).toNat = (a.toNat + 256 - b.toNat) % 256 := by
  have hb := toNat_regVal b
  have hsub : (a - b).toNat = (256 - b.toNat + a.toNat) % 256 := BitVec.toNat_sub a b
  omega

theorem toNat_regVal_shiftRight_one (a : RegVal) : (a >>> 1).toNat = a.toNat / 2 := by
  rw [BitVec.toNat_ushiftRight, Nat.shiftRight_eq_div_pow, Nat.pow_one]

theorem toNat_regVal_shiftLeft_one (a : RegVal) : (a <<< 1).toNat = a.toNat * 2 % 256 := by
  have hshift : (a <<< 1).toNat = (a.toNat <<< 1) % 256 := BitVec.toNat_shiftLeft
  rw [hshift, Nat.shiftLeft_eq, Nat.pow_one]

/-- `SHR V15`: a flag has no bit above bit 0 (R168). -/
theorem lowBitFlag_shiftRight_one (a : RegVal) : lowBitFlag a >>> 1 = 0 := by
  apply BitVec.eq_of_toNat_eq
  rw [toNat_regVal_shiftRight_one, toNat_lowBitFlag]
  exact Nat.div_eq_of_lt (Nat.mod_lt _ Nat.two_pos)

/-- `SHL V15`: the flag is doubled (R170). -/
theorem highBitFlag_shiftLeft_one (a : RegVal) :
    highBitFlag a <<< 1 = if 128 ≤ a.toNat then 2 else 0 := by
  have ha := toNat_regVal a
  apply BitVec.eq_of_toNat_eq
  rw [toNat_regVal_shiftLeft_one, toNat_highBitFlag]
  split
  · change _ = 2
    omega
  · change _ = 0
    omega

/-! ### Registers after the writes of an ALU operation -/

theorem State.getV_setV_self (s : State) (x : Reg) (b : RegVal) : (s.setV x b).getV x = b :=
  (s.getV_setV x x b).trans (if_pos rfl)

theorem State.getV_setFlag_self (s : State) (f : RegVal) : (s.setFlag f).getV flagReg = f :=
  (s.getV_setFlag flagReg f).trans (if_pos rfl)

theorem State.getV_setFlag_of_ne (s : State) (f : RegVal) {r : Reg} (h : r ≠ flagReg) :
    (s.setFlag f).getV r = s.getV r :=
  (s.getV_setFlag r f).trans (if_neg h)

/-- The flag stands after the result is written, unless the result goes over it. -/
theorem State.getV_flagReg_setFlag_setV (s : State) (f b : RegVal) {x : Reg} (h : x ≠ flagReg) :
    ((s.setFlag f).setV x b).getV flagReg = f := by
  rw [State.getV_setV, if_neg h.symm, State.getV_setFlag_self]

/-! ### One write (R160 to R165, R171) -/

/-- An instruction that writes one register with a value of the property `P`. -/
theorem exec_writesV {s : State} {i : Instr} {x : Reg} (P : RegVal → Prop) {b : RegVal}
    (hexec : exec i s = .next (s.setV x b)) (hb : P b) :
    ∃ t, exec i s = .next t ∧ P (t.getV x) ∧ ChangesOnly (fun it => it = .v x) s t :=
  ⟨_, hexec, (s.getV_setV_self x b).symm ▸ hb, s.setV_frame x b⟩

/-! ### Subtraction (R167, R169) -/

/-- The state `SUB` and `SUBN` leave: the flag of `V[p] > V[q]`, then in register `x` the difference of
`V[p]` and `V[q]` as they stand after the flag write. -/
def State.subtract (s : State) (x p q : Reg) : State :=
  let t := s.setFlag (greaterFlag (s.getV p) (s.getV q))
  t.setV x (t.getV p - t.getV q)

theorem exec_subReg (s : State) (x y : Reg) : exec (.subReg x y) s = .next (s.subtract x x y) := rfl

theorem exec_subn (s : State) (x y : Reg) : exec (.subn x y) s = .next (s.subtract x y x) := rfl

theorem State.subtract_frame (s : State) (x p q : Reg) :
    ChangesOnly (fun it => it = .v x ∨ it = .v flagReg) s (s.subtract x p q) :=
  s.setFlag_setV_frame x _ _

theorem State.subtract_flag (s : State) {x : Reg} (p q : Reg) (hx : x ≠ flagReg) :
    ((s.subtract x p q).getV flagReg).toNat = if (s.getV p).toNat > (s.getV q).toNat then 1 else 0 := by
  rw [State.subtract, s.getV_flagReg_setFlag_setV _ _ hx, toNat_greaterFlag]

/-- The result, by what each operand reads as after the flag write: `V15` as the flag, every other register
as before (`State.operand_of_ne`, `State.operand_flagReg`). -/
theorem State.subtract_result (s : State) (x : Reg) {p q : Reg} {a b : Nat}
    (hp : ((s.setFlag (greaterFlag (s.getV p) (s.getV q))).getV p).toNat = a)
    (hq : ((s.setFlag (greaterFlag (s.getV p) (s.getV q))).getV q).toNat = b) :
    ((s.subtract x p q).getV x).toNat = (a + 256 - b) % 256 := by
  rw [State.subtract, State.getV_setV_self, toNat_regVal_sub, hp, hq]

theorem State.operand_of_ne (s : State) (f : RegVal) {r : Reg} (h : r ≠ flagReg) :
    ((s.setFlag f).getV r).toNat = (s.getV r).toNat :=
  congrArg BitVec.toNat (s.getV_setFlag_of_ne f h)

theorem State.operand_flagReg (s : State) (a b : RegVal) :
    ((s.setFlag (greaterFlag a b)).getV flagReg).toNat = if a.toNat > b.toNat then 1 else 0 := by
  rw [State.getV_setFlag_self, toNat_greaterFlag]

theorem State.subtract_flagReg_self (s : State) :
    (s.subtract flagReg flagReg flagReg).getV flagReg = 0 := by
  rw [State.subtract, State.getV_setV_self]
  exact BitVec.sub_self _

/-! ### The obligations -/

/-- Settles O26: `SUB` is the subtraction of `Vy` from `Vx`; an operand that is `V15` reads as the flag. -/
theorem subtractWritesFlagFirst : Obligations.SubtractWritesFlagFirst := by
  intro s x y a b f
  refine ⟨decodeOfEncode (.subReg x y) rfl, s.subtract x x y, exec_subReg s x y, fun hx hy => ?_, ?_, ?_, ?_,
    s.subtract_frame x x y⟩
  · exact ⟨s.subtract_result x (s.operand_of_ne _ hx) (s.operand_of_ne _ hy), s.subtract_flag x y hx⟩
  · rintro hx rfl
    exact ⟨s.subtract_result x (s.operand_of_ne _ hx) (s.operand_flagReg _ _), s.subtract_flag x _ hx⟩
  · rintro rfl hy
    exact s.subtract_result flagReg (s.operand_flagReg _ _) (s.operand_of_ne _ hy)
  · rintro rfl rfl
    exact s.subtract_flagReg_self

/-- Settles O27: `SUBN` is the subtraction of `Vx` from `Vy`, with the result in `Vx`. -/
theorem subtractReversedWritesFlagFirst : Obligations.SubtractReversedWritesFlagFirst := by
  intro s x y a b f
  refine ⟨decodeOfEncode (.subn x y) rfl, s.subtract x y x, exec_subn s x y, fun hx hy => ?_, ?_, ?_, ?_,
    s.subtract_frame x y x⟩
  · exact ⟨s.subtract_result x (s.operand_of_ne _ hy) (s.operand_of_ne _ hx), s.subtract_flag y x hx⟩
  · rintro hx rfl
    exact ⟨s.subtract_result x (s.operand_flagReg _ _) (s.operand_of_ne _ hx), s.subtract_flag _ x hx⟩
  · rintro rfl hy
    exact s.subtract_result flagReg (s.operand_of_ne _ hy) (s.operand_flagReg _ _)
  · rintro rfl rfl
    exact s.subtract_flagReg_self

/-- Settles O28: a register other than `V15` is shifted as it was; `V15` is shifted as the flag, which a
right shift drops and a left shift doubles. -/
theorem shiftsDropBitIntoFlag : Obligations.ShiftsDropBitIntoFlag := by
  intro s x y a
  refine ⟨⟨decodeOfEncode (.shr x y) rfl, _, rfl, fun hx => ⟨?_, ?_⟩, ?_, s.setFlag_setV_frame x _ _⟩,
    ⟨decodeOfEncode (.shl x y) rfl, _, rfl, fun hx => ⟨?_, ?_⟩, ?_, s.setFlag_setV_frame x _ _⟩⟩
  · rw [State.getV_setV_self, s.getV_setFlag_of_ne _ hx, toNat_regVal_shiftRight_one]
  · rw [s.getV_flagReg_setFlag_setV _ _ hx, toNat_lowBitFlag]
  · rintro rfl
    rw [State.getV_setV_self, State.getV_setFlag_self, lowBitFlag_shiftRight_one]
  · rw [State.getV_setV_self, s.getV_setFlag_of_ne _ hx, toNat_regVal_shiftLeft_one]
  · rw [s.getV_flagReg_setFlag_setV _ _ hx, toNat_highBitFlag]
  · rintro rfl
    rw [State.getV_setV_self, State.getV_setFlag_self, highBitFlag_shiftLeft_one]

/-- Settles O22: each load is one write. -/
theorem registerLoads : Obligations.RegisterLoads := fun s x y kk =>
  ⟨⟨decodeOfEncode (.ldImm x kk) rfl, exec_writesV (· = kk) rfl rfl⟩,
    ⟨decodeOfEncode (.ldReg x y) rfl, exec_writesV (· = s.getV y) rfl rfl⟩⟩

/-- Settles O23: one write, of the sum. -/
theorem addImmediateWraps : Obligations.AddImmediateWraps := fun s x kk =>
  ⟨decodeOfEncode (.addImm x kk) rfl,
    exec_writesV (fun b => b.toNat = ((s.getV x).toNat + kk.toNat) % 256) rfl (BitVec.toNat_add _ _)⟩

/-- Settles O24: each is one write, of a value whose bits are those of the operands combined. -/
theorem bitwiseOperations : Obligations.BitwiseOperations := fun s x y =>
  ⟨⟨decodeOfEncode (.orReg x y) rfl,
      exec_writesV (fun b => ∀ k, b.getLsbD k = ((s.getV x).getLsbD k || (s.getV y).getLsbD k)) rfl
        fun _ => BitVec.getLsbD_or⟩,
    ⟨decodeOfEncode (.andReg x y) rfl,
      exec_writesV (fun b => ∀ k, b.getLsbD k = ((s.getV x).getLsbD k && (s.getV y).getLsbD k)) rfl
        fun _ => BitVec.getLsbD_and⟩,
    ⟨decodeOfEncode (.xorReg x y) rfl,
      exec_writesV (fun b => ∀ k, b.getLsbD k = ((s.getV x).getLsbD k != (s.getV y).getLsbD k)) rfl
        fun _ => BitVec.getLsbD_xor⟩⟩

/-- Settles O25: the sum is taken of the registers before, so the flag write changes no operand. -/
theorem addRegistersSetsCarry : Obligations.AddRegistersSetsCarry := by
  intro s x y sum
  refine ⟨decodeOfEncode (.addReg x y) rfl, _, rfl, ?_, fun hx => ?_, s.setFlag_setV_frame x _ _⟩
  · rw [State.getV_setV_self]
    exact BitVec.toNat_add _ _
  · rw [s.getV_flagReg_setFlag_setV _ _ hx, carryFlag_eq_ite]

/-- Settles O29: one write, of the masked byte; a bit outside the mask is cleared whatever the byte is. -/
theorem randomByteIsMasked : Obligations.RandomByteIsMasked := by
  intro s x kk
  have hdest := s.getV_setV_self x (s.rnd &&& kk)
  refine ⟨decodeOfEncode (.rnd x kk) rfl, s.setV x (s.rnd &&& kk), rfl, hdest, fun k hk => ?_, ?_, ?_,
    s.setV_frame x _⟩
  · rw [hdest, BitVec.getLsbD_and, hk, Bool.and_false]
  · rintro rfl
    rw [hdest]
    exact BitVec.and_zero
  · rintro rfl
    rw [hdest]
    exact BitVec.and_allOnes

end Sys2Proof.Machine
end

section
/-! PROOF. The index register and memory (spec/43_index_memory.md): one write of `I`, the glyphs after reset,
the bytes a store at `I` leaves, and the transfers of registers. -/

namespace Sys2Proof.Machine

/-! ### Writes of `I` (R190 to R192) -/

/-- The product is exact in 16 bits (R192). -/
theorem toNat_glyphAddr (b : RegVal) : (glyphAddr b).toNat = b.toNat * 5 := by
  have hb := toNat_regVal b
  have hfits : b.toNat * 5 < 65536 := by omega
  exact (BitVec.toNat_ofNat _ _).trans (Nat.mod_eq_of_lt hfits)

/-- The register is widened without loss before the sum is taken (R191). -/
theorem toNat_add_setWidth (w : IndexVal) (b : RegVal) :
    (w + b.setWidth Config.iBits).toNat = (w.toNat + b.toNat) % 65536 := by
  have hb : (b.setWidth Config.iBits).toNat = b.toNat := BitVec.toNat_setWidth_of_le (by decide)
  rw [BitVec.toNat_add, hb]
  rfl

/-- An instruction that writes `I` with a value of the property `P`. -/
theorem exec_writesI {s : State} {i : Instr} (P : IndexVal → Prop) {w : IndexVal}
    (hexec : exec i s = .next (s.setI w)) (hw : P w) :
    ∃ t, exec i s = .next t ∧ P t.i ∧ ChangesOnly (fun it => it = .i) s t :=
  ⟨_, hexec, hw, s.setI_frame w⟩

/-- A run of reset bytes inside the font is that run of the font (R40, R77). -/
theorem map_resetByte_eq_take (font : Font) {a n : Nat} (h : a + n ≤ 80) :
    (List.range n).map (fun k => resetByte font (a + k)) = (font.toList.drop a).take n := by
  apply List.ext_getElem?
  intro k
  rw [List.getElem?_map, List.getElem?_take]
  by_cases hk : k < n
  · have hfont : font[a + k]? = some (resetByte font (a + k)) := resetByte_font font (by omega)
    rw [if_pos hk, List.getElem?_range hk, List.getElem?_drop, Vector.getElem?_toList, hfont]
    rfl
  · have hout : (List.range n)[k]? = none := List.getElem?_eq_none (by rw [List.length_range]; omega)
    rw [if_neg hk, hout]
    rfl

/-! ### Stores and loads at `I` (R193 to R196) -/

/-- A completed store at `I` leaves its `k`-th byte at `I + k`. -/
theorem byteAt_storeAtI {s t : State} {bs : List Byte} (h : finish (s.storeBytes (s.addr 0) bs) = .next t)
    {k : Nat} (hk : k < bs.length) : t.byteAt (s.addr k) = bs[k] := by
  have hne : bs ≠ [] := List.ne_nil_of_length_pos (Nat.zero_lt_of_lt hk)
  rcases storeAtI_cases s bs hne with ⟨_, m, hm, hb, _⟩ | ⟨_, hf⟩
  · obtain rfl := Host.Outcome.next.inj (hm.symm.trans h)
    have hoff : s.addr k - s.addr 0 = k := Nat.add_sub_cancel_left _ _
    have hin : s.addr 0 ≤ s.addr k ∧ s.addr k - s.addr 0 < bs.length := ⟨Nat.le_add_right _ _, by omega⟩
    rw [hb, dif_pos hin]
    simp only [hoff]
  · cases hf.symm.trans h

/-- No digit is cut off in its byte (R193). -/
theorem map_toNat_bcdDigits (b : RegVal) :
    (bcdDigits b).map BitVec.toNat = [b.toNat / 100, b.toNat / 10 % 10, b.toNat % 10] := by
  have hb := toNat_regVal b
  simp only [bcdDigits, List.map_cons, List.map_nil, BitVec.toNat_ofNat, List.cons.injEq, and_true]
  omega

/-- `Fx33` completes when the third digit fits. -/
theorem execLdB_fits {s : State} {x : Reg} (h : s.addr 2 ≤ 4095) :
    ∃ t, exec (.ldB x) s = .next t ∧ ∀ k (hk : k < 3), (t.byteAt (s.addr k)).toNat =
      [(s.getV x).toNat / 100, (s.getV x).toNat / 10 % 10, (s.getV x).toNat % 10][k] := by
  rcases execLdB_cases x s with ⟨_, t, ht⟩ | ⟨hout, _⟩
  · refine ⟨t, ht, fun k hk => ?_⟩
    rw [byteAt_storeAtI ht hk]
    simp only [← map_toNat_bcdDigits, List.getElem_map]
    rfl
  · exact absurd h (Nat.not_le_of_gt hout)

/-- `Fx55` completes when the last register fits. -/
theorem execStRegs_fits {s : State} {x : Reg} (h : s.addr x.val ≤ 4095) :
    ∃ t, exec (.stRegs x) s = .next t ∧ ∀ r, r ≤ x → t.byteAt (s.addr r.val) = s.getV r := by
  rcases execStRegs_cases x s with ⟨_, m, hm, hb⟩ | ⟨hout, _⟩
  · exact ⟨_, hm, hb⟩
  · exact absurd h (Nat.not_le_of_gt hout)

/-- `Fx65` completes when the last register fits. -/
theorem execLdRegs_fits {s : State} {x : Reg} (h : s.addr x.val ≤ 4095) :
    ∃ t, exec (.ldRegs x) s = .next t ∧ ∀ r, r ≤ x → t.getV r = s.byteAt (s.addr r.val) := by
  rcases execLdRegs_cases x s with ⟨_, v, hv, hg⟩ | ⟨hout, _⟩
  · exact ⟨_, hv, fun r hr => (hg r).trans (if_pos hr)⟩
  · exact absurd h (Nat.not_le_of_gt hout)

/-! ### The obligations -/

/-- Settles O31: a store at `I` of three bytes, each a digit. -/
theorem decimalDigitsStored : Obligations.DecimalDigitsStored := by
  intro s x
  refine ⟨decodeOfEncode (.ldB x) rfl, fun hin => ?_,
    fun hout => (exec_fault_iff_raises (.ldB x) s _).2 ⟨hout, rfl⟩⟩
  obtain ⟨t, ht, hdigit⟩ := execLdB_fits hin
  refine ⟨t, ht, hdigit 0 (by decide), hdigit 1 (by decide), hdigit 2 (by decide),
    (instructionsWriteOnlyTheirItems (.ldB x) s t ht).mono ?_⟩
  rintro it ⟨k, hk, rfl⟩
  have hcases : k = 0 ∨ k = 1 ∨ k = 2 := by omega
  rcases hcases with rfl | rfl | rfl
  · exact .inl rfl
  · exact .inr (.inl rfl)
  · exact .inr (.inr rfl)

/-- Settles O32: what a completed store leaves, the frame of the instruction and the table of R254. -/
theorem registersStored : Obligations.RegistersStored := by
  intro s x
  refine ⟨decodeOfEncode (.stRegs x) rfl, fun hin => ?_,
    fun hout => (exec_fault_iff_raises (.stRegs x) s _).2 ⟨hout, rfl⟩⟩
  obtain ⟨t, ht, hb⟩ := execStRegs_fits hin
  exact ⟨t, ht, hb, instructionsWriteOnlyTheirItems (.stRegs x) s t ht⟩

/-- Settles O33: what a completed load leaves, the frame of the instruction and the table of R254. -/
theorem registersLoaded : Obligations.RegistersLoaded := by
  intro s x
  refine ⟨decodeOfEncode (.ldRegs x) rfl, fun hin => ?_,
    fun hout => (exec_fault_iff_raises (.ldRegs x) s _).2 ⟨hout, rfl⟩⟩
  obtain ⟨t, ht, hg⟩ := execLdRegs_fits hin
  exact ⟨t, ht, hg, instructionsWriteOnlyTheirItems (.ldRegs x) s t ht⟩

/-- Settles O34: the store completed, so its addresses are inside the memory, and the load has the same. -/
theorem storeThenLoadRestoresRegisters : Obligations.StoreThenLoadRestoresRegisters := by
  intro s t u x hstore hi hmem
  rcases execStRegs_cases x s with ⟨hin, m, hm, hb⟩ | ⟨_, hf⟩
  · obtain rfl := Host.Outcome.next.inj (hm.symm.trans hstore)
    have haddr : ∀ k, u.addr k = s.addr k := fun k => congrArg (fun w : IndexVal => w.toNat + k) hi
    obtain ⟨r, hr, hg⟩ := execLdRegs_fits (s := u) (x := x) (haddr x.val ▸ hin)
    refine ⟨r, hr, fun q hq => ?_⟩
    rw [hg q hq, haddr, hmem, hb q hq]
  · cases hf.symm.trans hstore

/-- Settles O30: each is one write of `I`; the five bytes at the address of glyph A are those the parameters
are constrained to. -/
theorem indexRegisterWrites : Obligations.IndexRegisterWrites := by
  refine ⟨fun p x hp => ?_, fun s x nnn => ⟨⟨?_, ?_⟩, ⟨?_, ?_⟩, ⟨?_, ?_⟩⟩⟩
  · have hi : (glyphAddr (((State.resetWith p).setV x 0xA).getV x)).toNat = 50 := by
      rw [toNat_glyphAddr, State.getV_setV_self]
      rfl
    refine ⟨_, rfl, hi, ?_⟩
    rw [← hp, ← map_resetByte_eq_take p.font (by decide)]
    exact List.map_congr_left fun k _ => congrArg (fun a => resetByte p.font (a + k)) hi
  · exact fun hn => decodeOfEncode (.ldI nnn) (decide_eq_true hn)
  · exact exec_writesI (· = nnn) rfl rfl
  · exact decodeOfEncode (.addI x) rfl
  · exact exec_writesI (fun w => w.toNat = (s.i.toNat + (s.getV x).toNat) % 65536) rfl (toNat_add_setWidth _ _)
  · exact decodeOfEncode (.ldF x) rfl
  · exact exec_writesI (fun w => w.toNat = (s.getV x).toNat * 5) rfl (toNat_glyphAddr _)

end Sys2Proof.Machine
end

section
/-! PROOF. The display (spec/44_display.md R210 to R215): the clear, one sprite bit, the two edge modes, and
the draw with `x` and `y` not 15, whose place the flag register does not move. -/

namespace Sys2Proof.Machine

/-! ### The edge modes (R212, R213) -/

theorem edgeCell_clip_on {cx cy : Nat} (h : cx ≤ 63 ∧ cy ≤ 31) :
    ∃ p, edgeCell .clip cx cy = some p ∧ p.val = cy * 64 + cx :=
  ⟨_, dif_pos ⟨Nat.lt_succ_of_le h.1, Nat.lt_succ_of_le h.2⟩, rfl⟩

theorem edgeCell_clip_off {cx cy : Nat} (h : ¬ (cx ≤ 63 ∧ cy ≤ 31)) : edgeCell .clip cx cy = none :=
  dif_neg fun hon => h ⟨Nat.le_of_lt_succ hon.1, Nat.le_of_lt_succ hon.2⟩

/-- In clip mode a sprite that starts off the grid falls on no cell: no pixel is left of or above its start. -/
theorem State.not_spriteCovers_of_clip_off {s : State} {ox oy : Nat} (hclip : s.params.drawEdge = .clip)
    (hoff : 64 ≤ ox ∨ 32 ≤ oy) (n : Nat) (p : Fin Config.fbCells) : ¬ s.spriteCovers ox oy n p := by
  rintro ⟨row, col, -, -, -, hp⟩
  rw [hclip, edgeCell_clip_off (by omega)] at hp
  exact nomatch hp

/-! ### One sprite bit (R211, the inner loop) -/

theorem State.drawBit_visible {s : State} {x y : Reg} {row col : Nat} {p : Fin Config.fbCells}
    (h : edgeCell s.params.drawEdge ((s.getV x).toNat + col) ((s.getV y).toNat + row) = some p) :
    s.drawBit x y row col = s.hitCell p := by
  rw [State.drawBit, h]

theorem State.drawBit_off {s : State} {x y : Reg} {row col : Nat}
    (h : edgeCell s.params.drawEdge ((s.getV x).toNat + col) ((s.getV y).toNat + row) = none) :
    s.drawBit x y row col = s := by
  rw [State.drawBit, h]

theorem State.hitCell_frame (s : State) (p : Fin Config.fbCells) :
    ChangesOnly (fun it => it = .v flagReg ∨ it = .cell p) s (s.hitCell p) := by
  obtain ⟨⟨v, fb, heq⟩, hregs, -⟩ := DrawnFrom.hitCell s p
  intro it hit
  cases it with
  | v r => exact hregs r fun e => hit (.inl (by rw [e]))
  | cell q => exact (s.getFb_hitCell p q).trans (if_neg fun e => hit (.inr (by rw [e])))
  | _ => rw [heq]; rfl

/-! ### A draw with `x` and `y` not 15 (R215) -/

theorem State.origin_of_ne (s : State) (flag : Nat) {x : Reg} (hx : x ≠ flagReg) :
    s.origin flag x = (s.getV x).toNat := if_neg hx

/-- A sprite over a lit cell has a bit that is the first, in the order of rows and then columns, to fall on
one. -/
theorem State.exists_first_collision {s : State} {ox oy n : Nat}
    (h : ∃ p, s.spriteCovers ox oy n p ∧ s.getFb p = 1) :
    ∃ r c q, s.spriteBitOn ox oy n r c q ∧ s.getFb q = 1 ∧
      ∀ row col p, row * 8 + col < r * 8 + c → s.spriteBitOn ox oy n row col p → s.getFb p = 0 := by
  obtain ⟨p, ⟨row, col, hon⟩, hlit⟩ := h
  induction hk : row * 8 + col using Nat.strongRecOn generalizing row col p with
  | ind k ih =>
    by_cases hearlier : ∃ r c q, r * 8 + c < k ∧ s.spriteBitOn ox oy n r c q ∧ s.getFb q = 1
    · obtain ⟨r, c, q, hlt, hbit, hq⟩ := hearlier
      exact ih _ hlt q hq r c hbit rfl
    · refine ⟨row, col, p, hon, hlit, fun r c q hlt hbit => ?_⟩
      exact (BitVec.eq_zero_or_eq_one _).resolve_right fun hq => hearlier ⟨r, c, q, hk ▸ hlt, hbit, hq⟩

/-- A draw leaves the sprite, its place and the edge mode as they were, unless `x` or `y` is 15. -/
theorem execDrw_keeps_spriteCovers {s t : State} {x y : Reg} {n : Fin 16} (h : exec (.drw x y n) s = .next t)
    (hx : x ≠ flagReg) (hy : y ≠ flagReg) (p : Fin Config.fbCells) :
    t.spriteCovers (t.getV x).toNat (t.getV y).toNat n.val p ↔
      s.spriteCovers (s.getV x).toNat (s.getV y).toNat n.val p := by
  have hframe := execDrw_frame h
  have hvx : t.getV x = s.getV x := hframe (.v x) (by simp [mayWrite, hx])
  have hvy : t.getV y = s.getV y := hframe (.v y) (by simp [mayWrite, hy])
  have hi : t.i = s.i := hframe .i (by simp [mayWrite])
  have hparams : t.params = s.params := hframe .params (by simp [mayWrite])
  have hbyte : ∀ a, t.byteAt a = s.byteAt a := fun a => hframe (.byte a) (by simp [mayWrite])
  simp only [State.spriteCovers, State.spriteBitOn, State.addr, hvx, hvy, hi, hparams, hbyte]

/-! ### The obligations -/

/-- Settles O37: by `drawAfterFirstCollision` if a target is lit, else by `drawWithFlagAsPosition`; as neither
position register is the flag register, the bits before and after the first collision have the same place. -/
theorem collisionDetector : Obligations.CollisionDetector := by
  intro s x y n hx hy hin covers
  have hone : (1 : RegVal) ≠ 0 := by decide
  by_cases hlit : ∃ p, covers p ∧ s.getFb p = 1
  · obtain ⟨r, c, q, hon, hq, hdark⟩ := State.exists_first_collision hlit
    have hrows : s.addr (n.val - 1) ≤ 4095 := hin.resolve_left (Nat.ne_of_gt (Nat.zero_lt_of_lt hon.1))
    have hfirst := drawAfterFirstCollision s x y n r c q hrows
    simp only [s.origin_of_ne _ hx, s.origin_of_ne _ hy] at hfirst
    obtain ⟨t, ht, hflag, hcov, hrest⟩ := hfirst hon hq hdark
    refine ⟨t, ht, iff_of_true hflag hlit, iff_of_false (hflag ▸ hone) (not_not_intro hlit), ?_, ?_⟩
    · rintro p ⟨row, col, hbit⟩
      refine hcov p ⟨row, col, ?_⟩
      exact (Nat.lt_or_ge (r * 8 + c) (row * 8 + col)).symm.imp (⟨·, hbit⟩) (⟨·, hbit⟩)
    · rintro p hp
      exact hrest p fun ⟨row, col, htarget⟩ => hp ⟨row, col, htarget.elim And.right And.right⟩
  · have hdark : ∀ p, covers p → s.getFb p = 0 := fun p hp =>
      (BitVec.eq_zero_or_eq_one _).resolve_right fun h1 => hlit ⟨p, hp, h1⟩
    have hnone := drawWithFlagAsPosition s x y n hin
    simp only [s.origin_of_ne _ hx, s.origin_of_ne _ hy] at hnone
    obtain ⟨t, ht, hflag, hcov, hrest⟩ := hnone hdark
    refine ⟨t, ht, iff_of_false (hflag ▸ hone.symm) hlit, iff_of_true hflag hlit, fun p hp => ?_, hrest⟩
    rw [hcov p hp, hdark p hp]
    rfl

/-- Settles O38: both draws complement the same cells, and complementing twice changes nothing. -/
theorem drawTwiceRestores : Obligations.DrawTwiceRestores := by
  intro s t x y n hx hy h
  have hin : n.val = 0 ∨ s.addr (n.val - 1) ≤ 4095 := by
    rcases execDrw_cases x y n s with ⟨hin, -⟩ | ⟨-, -, hf⟩
    · exact hin
    · cases hf.symm.trans h
  have hi : t.i = s.i := execDrw_frame h .i (by simp [mayWrite])
  have hsame := execDrw_keeps_spriteCovers h hx hy
  obtain ⟨t', ht', -, hflag, hcov, hrest⟩ := collisionDetector s x y n hx hy hin
  obtain rfl := Host.Outcome.next.inj (h.symm.trans ht')
  obtain ⟨u, hu, hflag', -, hcov', hrest'⟩ :=
    collisionDetector t x y n hx hy (by unfold State.addr at hin ⊢; rwa [hi])
  simp only [hsame] at hflag' hcov' hrest'
  refine ⟨u, hu, fun p => ?_, fun hdark => ⟨hflag.2 ?_, hflag'.trans ?_⟩⟩
  · by_cases hp : s.spriteCovers (s.getV x).toNat (s.getV y).toNat n.val p
    · rw [hcov' p hp, hcov p hp, BitVec.xor_assoc, BitVec.xor_self, BitVec.xor_zero]
    · rw [hrest' p hp, hrest p hp]
  · rintro ⟨p, -, hp⟩
    rw [hdark p] at hp
    exact absurd hp (by decide)
  · refine exists_congr fun p => and_iff_left_of_imp fun hp => ?_
    rw [hcov p hp, hdark p]
    rfl

/-- Settles O43: a sprite that starts off the grid has no target, so no collision; its rows are read as
`drawCompletesOrFaults` says. -/
theorem clipModeDropsPixelsOffGrid : Obligations.ClipModeDropsPixelsOffGrid := by
  refine ⟨fun cx cy => ⟨edgeCell_clip_on, edgeCell_clip_off⟩, fun s x y n hx hy hclip hoff => ?_⟩
  have hnone := State.not_spriteCovers_of_clip_off hclip hoff n.val
  obtain ⟨-, -, hfault⟩ := drawCompletesOrFaults s x y n
  refine ⟨fun hin => ?_, hfault⟩
  obtain ⟨t, ht, -, hflag, -, hrest⟩ := collisionDetector s x y n hx hy hin
  exact ⟨t, ht, hflag.2 fun ⟨p, hp, _⟩ => hnone p hp, fun p => hrest p (hnone p)⟩

/-- Settles O35: by the frame of the instruction, which names neither a register nor the flag register. -/
theorem clearScreen : Obligations.ClearScreen :=
  ⟨decodeOfEncode .cls rfl, fun s => ⟨_, rfl, s.getFb_clearFb, rfl, rfl,
    instructionsWriteOnlyTheirItems .cls s _ rfl⟩⟩

/-- Settles O41: a visible bit toggles its cell, and a bit off the grid leaves the state as it is. -/
theorem spriteBitTogglesCell : Obligations.SpriteBitTogglesCell := by
  intro s x y row col
  refine ⟨fun p hp => ?_, fun hoff => ?_⟩
  · rw [State.drawBit_visible hp, State.getV_flag_hitCell, State.getFb_hitCell, if_pos rfl]
    refine ⟨fun hlit => ⟨if_pos hlit, ?_⟩, fun hdark => ⟨if_neg ?_, ?_⟩, s.hitCell_frame p⟩
    · rw [hlit]; rfl
    · rw [hdark]; decide
    · rw [hdark]; rfl
  · rw [State.drawBit_off hoff]
    exact ChangesOnly.refl _ s

/-- Settles O42: no pixel is dropped, and its cell has the index every visible pixel's has. -/
theorem wrapModeTakesCoordinatesModuloGrid : Obligations.WrapModeTakesCoordinatesModuloGrid :=
  fun _ _ => ⟨_, rfl, edgeCell_val (m := .wrap) rfl⟩

end Sys2Proof.Machine
end

section
/-! PROOF. The keys and the timers (spec/45_keys_timers.md): where a key test leaves `pc`, what the key wait
finds, and what a step makes of a timer that is read or loaded. -/

namespace Sys2Proof.Machine

/-! ### A step of an encoded instruction -/

/-- The instruction runs between the fetch advance and the tick. -/
theorem step_of_encoded {s u : State} {i : Instr} (hi : i.wellFormed = true) (hfetch : s.fetch = .ok (encode i))
    (hexec : exec i s.beginStep = .next u) : step s = .next u.endStep := by
  rw [step_of_fetch hfetch, decodeOfEncode i hi]
  exact congrArg (onNext · State.endStep) hexec

theorem bne_zero_eq_decide_pos (b : TimerVal) : (b != 0) = decide (0 < b.toNat) := by
  rw [Bool.eq_iff_iff, bne_zero_iff_toNat_pos, decide_eq_true_iff]

/-! ### The key tests (R230, R231) -/

theorem skipOnKey_of_le {s : State} {x : Reg} (wanted : Bool) (h : (s.getV x).toNat ≤ 15) :
    skipOnKey x wanted s = .ok (s.skipIf (keyPressed s.keys (s.getV x).toNat == wanted)) :=
  if_pos (Nat.lt_succ_of_le h)

/-- A key test of a register that names a key: what `SKP` and `SKNP` share. -/
theorem skipOnKey_skips {s : State} {x : Reg} (wanted : Bool) (h : (s.getV x).toNat ≤ 15) :
    ∃ t, finish (skipOnKey x wanted s) = .next t ∧
      t.pc = (if s.keys.getLsbD (s.getV x).toNat = wanted then s.pc + 2 else s.pc) ∧
      ChangesOnly (fun it => it = .pc) s t := by
  refine ⟨_, congrArg finish (skipOnKey_of_le wanted h), ?_, s.skipIf_frame _⟩
  simp only [State.skipIf_eq, State.setPc_pc, keyPressed, beq_iff_eq]

theorem skipOnKey_faults {s : State} {x : Reg} (wanted : Bool) (h : 15 < (s.getV x).toNat) :
    finish (skipOnKey x wanted s) = .fault (.keyRange (s.getV x)) := by
  rcases skipOnKey_cases x wanted s with ⟨hle, _⟩ | ⟨_, hfault⟩
  · exact absurd h hle
  · exact hfault

/-! ### The key wait (R232) -/

/-- An ascending scan that keeps the last number to pass ends with the highest one. -/
theorem foldl_range_eq_highest (test : Nat → Bool) {k n : Nat} (hk : k < n) (hpass : test k = true)
    (habove : ∀ j, k < j → j < n → test j = false) :
    (List.range n).foldl (fun best j => if test j then some j else best) none = some k := by
  induction n with
  | zero => exact absurd hk (Nat.not_lt_zero k)
  | succ n ih =>
    rw [List.range_succ, List.foldl_append, List.foldl_cons, List.foldl_nil]
    by_cases hkn : k = n
    · subst hkn
      rw [if_pos hpass]
    · have hlt : k < n := by omega
      rw [habove n hlt n.lt_succ_self]
      exact ih hlt fun j hj hjn => habove j hj (by omega)

theorem lastPressed_eq_highest {keys : Keys} {k : Nat} (hk : k < 16) (hpressed : keys.getLsbD k = true)
    (habove : ∀ j, k < j → j < 16 → keys.getLsbD j = false) : lastPressed keys = some k :=
  foldl_range_eq_highest (keyPressed keys) hk hpressed habove

theorem lastPressed_eq_none {keys : Keys} (h : ∀ k, k < 16 → keys.getLsbD k = false) : lastPressed keys = none :=
  (lastPressed_eq_none_iff keys).2 <| BitVec.eq_of_getLsbD_eq fun k hk => (h k hk).trans BitVec.getLsbD_zero.symm

theorem exec_ldVxK_of_pressed {s : State} {k : Nat} (x : Reg) (h : lastPressed s.keys = some k) :
    exec (.ldVxK x) s = .next (s.setV x (BitVec.ofNat Config.vBits k)) := by
  simp only [exec, execLdVxK, h]

theorem exec_ldVxK_nonblocking {s : State} (x : Reg) (hnone : lastPressed s.keys = none)
    (hmode : s.params.keyWait = .nonblockingLast) : exec (.ldVxK x) s = .next s := by
  simp only [exec, execLdVxK, hnone, State.noKey, hmode]

theorem exec_ldVxK_retry {s : State} (x : Reg) (hnone : lastPressed s.keys = none)
    (hmode : s.params.keyWait = .blockingRetry) : exec (.ldVxK x) s = .next (s.setPc (s.pc - 2)) := by
  simp only [exec, execLdVxK, hnone, State.noKey, hmode, State.goBack, instrStep_eq]

/-! ### The obligations -/

/-- Settles O45: the scan ends with the highest pressed key; with none, the way back of the retry undoes the
fetch advance of its step. -/
theorem keyWaitTakesHighestOrGoesOn : Obligations.KeyWaitTakesHighestOrGoesOn := by
  refine ⟨fun x => decodeOfEncode (.ldVxK x) rfl, fun s x k hk hpressed habove => ?_,
    fun s x hnone => ⟨fun hmode => ?_, fun hmode => ?_⟩, fun s x hfetch hmode hnone => ?_⟩
  · have hexec := exec_ldVxK_of_pressed x (lastPressed_eq_highest hk hpressed habove)
    have hbyte : k < 2 ^ 8 := by omega
    exact exec_writesV (fun b => b.toNat = k) hexec ((BitVec.toNat_ofNat k 8).trans (Nat.mod_eq_of_lt hbyte))
  · exact ⟨s, exec_ldVxK_nonblocking x (lastPressed_eq_none hnone) hmode, ChangesOnly.refl _ s⟩
  · exact ⟨_, exec_ldVxK_retry x (lastPressed_eq_none hnone) hmode, rfl, s.setPc_frame _⟩
  · have hexec := exec_ldVxK_retry (s := s.beginStep) x (lastPressed_eq_none hnone) hmode
    exact ⟨_, step_of_encoded (i := .ldVxK x) rfl hfetch hexec, BitVec.add_sub_cancel s.pc 2, fun _ => rfl,
      tickDown_toNat s.dt, tickDown_toNat s.st⟩

/-- Settles O44: both tests are one skip on the key the register names. -/
theorem keyTestsSkipOrFault : Obligations.KeyTestsSkipOrFault := fun _ x =>
  ⟨decodeOfEncode (.skp x) rfl, decodeOfEncode (.sknp x) rfl,
    fun h => ⟨skipOnKey_skips true h, skipOnKey_skips false h⟩,
    fun h => ⟨skipOnKey_faults true h, skipOnKey_faults false h⟩⟩

/-- Settles O46: each access is one write, and the tick counts down what it left in the timers. -/
theorem timerAccesses : Obligations.TimerAccesses := by
  intro s x
  refine ⟨⟨decodeOfEncode (.ldVxDt x) rfl, exec_writesV (· = s.dt) rfl rfl, fun hfetch => ?_⟩,
    ⟨decodeOfEncode (.ldDtVx x) rfl, ⟨_, rfl, rfl, s.setDt_frame _⟩, fun hfetch => ?_⟩,
    ⟨decodeOfEncode (.ldStVx x) rfl, ⟨_, rfl, rfl, s.setSt_frame _⟩, fun hfetch => ?_⟩⟩
  · exact ⟨_, step_of_encoded (i := .ldVxDt x) rfl hfetch rfl, s.beginStep.getV_setV_self x s.dt,
      tickDown_toNat s.dt⟩
  · exact ⟨_, step_of_encoded (i := .ldDtVx x) rfl hfetch rfl, tickDown_toNat (s.getV x)⟩
  · have hsound := bne_zero_eq_decide_pos (s.getV x)
    exact ⟨_, step_of_encoded (i := .ldStVx x) rfl hfetch rfl, tickDown_toNat (s.getV x),
      congrArg (s.soundRequested || ·) hsound, hsound⟩

end Sys2Proof.Machine
end

section
/-! PROOF. The outcomes of a step that do not complete: no step is refused, and a step faults exactly as the
table of model faults says (spec/60_exceptions.md R254). -/

namespace Sys2Proof.Machine

/-! ### No outcome is a refusal -/

theorem finish_ne_refused (e : Except Fault State) (r : Refusal) : finish e ≠ .refused r := by
  cases e <;> exact fun h => nomatch h

/-- Six instructions end in `finish`, which knows completion and fault only; the others complete. -/
theorem exec_ne_refused (i : Instr) (s : State) (r : Refusal) : exec i s ≠ .refused r := by
  cases i with
  | drw | ldB | stRegs | ldRegs | skp | sknp => exact finish_ne_refused _ r
  | _ => exact fun h => nomatch h

theorem execDecoded_ne_refused (d : Decoded) (s : State) (r : Refusal) : execDecoded d s ≠ .refused r := by
  cases d with
  | instr i => exact exec_ne_refused i s r
  | unrecognised w => exact fun h => nomatch h

theorem onNext_refused {o : Host.Outcome State Fault Refusal} {f : State → State} {r : Refusal} :
    onNext o f = .refused r ↔ o = .refused r := by
  cases o <;> simp [onNext]

theorem step_ne_refused (s : State) (r : Refusal) : step s ≠ .refused r := by
  cases hf : s.fetch with
  | error f => simp [step_fault.2 (.inl hf)]
  | ok w =>
    rw [step_of_fetch hf]
    exact fun h => execDecoded_ne_refused _ _ r (onNext_refused.1 h)

/-! ### The faults of a step -/

/-- The table of R254 reads only `I` and the registers, which the fetch advance leaves unchanged. -/
theorem raises_beginStep (i : Instr) (s : State) (f : Fault) : raises i s.beginStep f ↔ raises i s f := by
  cases i <;> exact Iff.rfl

/-- Only a recognised word faults: an unrecognised one ends in its warning (R251). -/
theorem execDecoded_fault_iff (d : Decoded) (s : State) (f : Fault) :
    execDecoded d s = .fault f ↔ ∃ i, d = .instr i ∧ raises i s f := by
  cases d with
  | instr i => simpa [execDecoded] using exec_fault_iff_raises i s f
  | unrecognised w => simp [execDecoded]

/-- Settles O13: a fault is that of the fetch or that of the execute phase, and the latter's condition is the
same before and after the fetch advance. -/
theorem stepFaultsExactly : Obligations.StepFaultsExactly := by
  refine fun s => ⟨step_ne_refused s, fun f => step_fault.trans (or_congr (s.fetch_error_iff f) ?_)⟩
  simp only [execDecoded_fault_iff, raises_beginStep, exists_and_left]

end Sys2Proof.Machine
end

section
/-! PROOF. The host's load, and the invariant under the host's moves and along every run
(spec/70_reset_and_hazards.md R280 to R286). -/

namespace Sys2Proof.Machine

/-! ### The load copies its image (R281) -/

/-- The copy of a load is the store of the data instructions, where that completes. -/
theorem State.storeBytes_eq_copyBytes (bs : List Byte) (s : State) (a : Nat) (h : a + bs.length ≤ 4096) :
    s.storeBytes a bs = .ok (s.copyBytes a bs) := by
  induction bs generalizing s a with
  | nil => rfl
  | cons b bs ih =>
    rw [List.length_cons] at h
    simp only [State.storeBytes, State.writeByte_inside s a b (by omega)]
    exact ih (s.setByte a b) (a + 1) (by omega)

/-- A copy inside the memory touches memory alone, writes exactly its bytes, and keeps the canonical form. -/
theorem State.copyBytes_writes (bs : List Byte) (s : State) (a : Nat) (h : a + bs.length ≤ 4096) :
    ∃ m, s.copyBytes a bs = { s with mem := m } ∧
      (∀ b, ({ s with mem := m } : State).byteAt b =
        if h : a ≤ b ∧ b - a < bs.length then bs[b - a]'h.2 else s.byteAt b) ∧
      (Memory.wf s.params.font s.mem → Memory.wf s.params.font m) := by
  obtain ⟨m, hm, hread, hwf⟩ := State.storeBytes_fits bs s a h
  exact ⟨m, Except.ok.inj ((State.storeBytes_eq_copyBytes bs s a h).symm.trans hm), hread, hwf⟩

theorem State.copyBytes_byteAt {bs : List Byte} (s : State) {a : Nat} (h : a + bs.length ≤ 4096) {k : Nat}
    (hk : k < bs.length) : (s.copyBytes a bs).byteAt (a + k) = bs[k] := by
  obtain ⟨m, hcopy, hread, _⟩ := State.copyBytes_writes bs s a h
  have hin : a ≤ a + k ∧ a + k - a < bs.length := by omega
  rw [hcopy, hread, dif_pos hin]
  simp only [Nat.add_sub_cancel_left]

theorem State.copyBytes_frame {bs : List Byte} (s : State) {a : Nat} (h : a + bs.length ≤ 4096) :
    ChangesOnly (fun it => ∃ k, k < bs.length ∧ it = .byte (a + k)) s (s.copyBytes a bs) := by
  obtain ⟨m, hcopy, hread, _⟩ := State.copyBytes_writes bs s a h
  rw [hcopy]
  intro it hit
  cases it with
  | byte b =>
    refine (hread b).trans (dif_neg fun ⟨hle, hlt⟩ => hit ⟨b - a, hlt, ?_⟩)
    rw [Nat.add_sub_cancel' hle]
  | _ => rfl

theorem length_take_progMax (bytes : List Byte) : (bytes.take Config.progMax).length = min bytes.length 3584 :=
  List.length_take.trans (Nat.min_comm _ _)

/-- No bounds violation is possible: a load drops the bytes that would lie above the memory. -/
theorem image_fits (bytes : List Byte) : Config.progBase + (bytes.take Config.progMax).length ≤ 4096 := by
  rw [length_take_progMax]
  exact Nat.add_le_add_left (Nat.min_le_right _ 3584) 512

/-! ### The host's moves keep the invariant (R285) -/

theorem State.Inv.params_wf {s : State} (h : s.Inv) : s.params.wf := h.2.2.2

theorem State.Inv.load {s : State} (h : s.Inv) (bytes : List Byte) : (s.load bytes).1.Inv := by
  obtain ⟨m, hcopy, _, hwf⟩ := State.copyBytes_writes _ s _ (image_fits bytes)
  obtain ⟨hmem, hrest⟩ := h
  have hload : (s.load bytes).1 = { s with mem := m } := hcopy
  rw [hload]
  exact ⟨hwf hmem, hrest⟩

theorem State.Inv.hostReset {s : State} (h : s.Inv) : s.hostReset.Inv := inv_resetWith h.params_wf

/-! ### The parameters (spec/00_scope.md R7) -/

theorem not_mayWrite_params (s : State) (i : Instr) : ¬ mayWrite s i .params := by
  intro h
  cases i with
  | ldVxK => exact absurd (mayWrite_ldVxK h) (by simp)
  | _ => simp [mayWrite] at h

theorem step_params {s t : State} (h : step s = .next t) : t.params = s.params := by
  obtain ⟨w, u, _, hu, rfl⟩ := step_next.1 h
  exact execDecoded_keeps (it := .params) hu (fun i _ => not_mayWrite_params _ i) (by simp)

/-! ### The obligations -/

/-- Settles O57: a load is the copy of its image, which fits above 0x200. -/
theorem loadCopiesTruncated : Obligations.LoadCopiesTruncated := by
  intro s bytes
  have hlen := length_take_progMax bytes
  have hframe := s.copyBytes_frame (image_fits bytes)
  rw [hlen] at hframe
  refine ⟨rfl, fun k hk => ?_, hframe⟩
  have hbyte := s.copyBytes_byteAt (image_fits bytes) (hlen.symm ▸ hk)
  rw [List.getElem_take] at hbyte
  exact (List.getElem?_eq_getElem (by omega)).trans (congrArg some hbyte.symm)

/-- Settles O53: an acknowledge and a supplied sample touch nothing the invariant speaks of. -/
theorem hostMovesKeepInvariant : Obligations.HostMovesKeepInvariant := by
  intro s a h
  cases a with
  | reset => exact h.hostReset
  | load bytes => exact h.load bytes
  | drawAck | soundAck | supply => exact h

/-- Settles O54, by induction on the run: it begins with the invariant, and every step and every move of
the host keeps it. -/
theorem reachableStatesMeetInvariant : Obligations.ReachableStatesMeetInvariant := by
  refine ⟨fun s hs => ?_, fun s t => step_params⟩
  induction hs with
  | reset p hp => exact inv_resetWith hp
  | step s t _ ht ih => exact stepKeepsInvariant s t ih ht
  | host s a _ ih => exact hostMovesKeepInvariant s a ih

end Sys2Proof.Machine
end
